-- ==== Sys2Proof/Word.lean ====
section
/-!
DEFINITION. The words the host and the block exchange (00_scope.md R7): bytes, 32-bit words and the
7-bit word address of the register port (20_memory.md R60).
-/

namespace Sys2Proof

/-- 8 bits (R7). -/
abbrev Byte := BitVec 8

/-- 32 bits: a command word, a register value (R7, R63). -/
abbrev Word := BitVec 32

/-- A word address of the host register space (R60). -/
abbrev WAddr := BitVec 7

end Sys2Proof
end

