-- ==== Sys2Proof/Config.lean ====
section
/-!
DEFINITION. What is fixed for one block and what the spec leaves open (00_scope.md R6): the capacities of
this hardware, the hash algorithms and their tag lengths, the external generator HMAC_GEN, and the free
values of the model.
-/

namespace Sys2Proof

/-- The hash algorithms a request can name (10_state.md R25, R41). CFG.ALG = 3 names none of them. -/
inductive HashAlg
  | sha1
  | sha256
  | sha512
  deriving DecidableEq, Repr, Inhabited

/-- TAGLEN (42_hotp_pipeline.md R151). -/
def tagLen : HashAlg → Nat
  | .sha1 => 20
  | .sha256 => 32
  | .sha512 => 64

/-- The generator's answer to a request (R6): a tag of exactly TAGLEN(alg) bytes, or a key error. -/
inductive HmacAnswer (alg : HashAlg)
  | tag (t : Vector Byte (tagLen alg))
  | keyError
  deriving DecidableEq, Repr, Inhabited

namespace Config

/-- ENC_CAP of this hardware (R6). -/
abbrev encCap : Nat := 64

/-- DEC_CAP of this hardware (R6). -/
abbrev decCap : Nat := 64

/-- ENC_SYM_CAP = ceil(8 × ENC_CAP / 5) (R6). -/
def symCap (cap : Nat) : Nat := (8 * cap + 4) / 5

/-- The command-set version that CAPS shows (R1, 10_state.md R48). -/
def commandSetVersion : Byte := 0x01#8

/-- HMAC_GEN(alg, key, msg): the external generator, a total function the spec leaves open (R6,
92_eei_decisions.md D16). It has no body: nothing can be proved of its values (log entry 1). -/
opaque hmacGen : (alg : HashAlg) → (key : List Byte) → (msg : Vector Byte 8) → HmacAnswer alg

/-- Free value: the byte TRUNC takes for an index at or beyond the end of the tag. R157 states no such read
(a tag in state TAGGED has 20, 32 or 64 bytes), so nothing constrains it (log entry 8). -/
opaque absentTagByte : (tag : List Byte) → (index : Nat) → Byte

/-- Free value: hreq_msg while REQ = NONE. The signal table of 20_memory.md R80 gives the other signals 0 then and this
one no value, so nothing constrains it. That it depends on REQ_SEQ alone is the model's choice (log entry 16). -/
opaque idleMessage : (reqSeq : BitVec 8) → Vector Byte 8

end Config

end Sys2Proof
end

