-- ==== Sys2Proof/Syntax.lean ====
section
/-!
DEFINITION. The thirteen commands (30_encoding.md R93), one constructor per row of spec/opcode_table.json.
-/

namespace Sys2Proof

/-- A legal command. IMM8 is the only operand, and only ENC.BYTE and DEC.CHAR have it (R92). -/
inductive Instr
  | nop
  | eclr
  | srst
  | encInit
  | encByte (b : Byte)
  | encFinal
  | decInit
  | decChar (c : Byte)
  | decFinal
  | pipeInit
  | hmacReq
  | trunc
  | reduce
  deriving DecidableEq, Repr

/-- The mnemonic of R93. -/
def Instr.mnemonic : Instr → String
  | .nop => "NOP"
  | .eclr => "ECLR"
  | .srst => "SRST"
  | .encInit => "ENC.INIT"
  | .encByte _ => "ENC.BYTE"
  | .encFinal => "ENC.FINAL"
  | .decInit => "DEC.INIT"
  | .decChar _ => "DEC.CHAR"
  | .decFinal => "DEC.FINAL"
  | .pipeInit => "PIPE.INIT"
  | .hmacReq => "HMAC.REQ"
  | .trunc => "TRUNC"
  | .reduce => "REDUCE"

/-- The operand byte, for the two commands that have one (R92). -/
def Instr.operand : Instr → Option Byte
  | .encByte b => some b
  | .decChar c => some c
  | .nop => none
  | .eclr => none
  | .srst => none
  | .encInit => none
  | .encFinal => none
  | .decInit => none
  | .decFinal => none
  | .pipeInit => none
  | .hmacReq => none
  | .trunc => none
  | .reduce => none

end Sys2Proof
end

