-- ==== Sys2Proof/WellFormed.lean ====
section
/-!
DEFINITION. Well-formedness. An `Instr` carries it in its types: its one operand is a byte, so every term is a
legal command (30_encoding.md R92, R94). What can be ill formed is a command as a host program spells it, a mnemonic
with a number or none: R98 says which of those the assembler refuses.
-/

namespace Sys2Proof

/-- Every `Instr` is well formed: no constructor holds an operand its encoding cannot hold (R92). Stated per
constructor, so that a constructor with a wider operand would have to say its check here. -/
def Instr.wf : Instr → Bool
  | .nop => true
  | .eclr => true
  | .srst => true
  | .encInit => true
  | .encByte b => b.toNat ≤ 255
  | .encFinal => true
  | .decInit => true
  | .decChar c => c.toNat ≤ 255
  | .decFinal => true
  | .pipeInit => true
  | .hmacReq => true
  | .trunc => true
  | .reduce => true

/-- A command as a host program writes it (R98): a mnemonic and, or not, a number after it. -/
structure CommandText where
  mnemonic : String
  operand : Option Nat
  deriving DecidableEq, Repr

/-- The two mnemonics that take an operand (R92, R98). -/
def operandMnemonics : List String := ["ENC.BYTE", "DEC.CHAR"]

/-- The eleven mnemonics that take none (R98). -/
def plainMnemonics : List String :=
  ["NOP", "ECLR", "SRST", "ENC.INIT", "ENC.FINAL", "DEC.INIT", "DEC.FINAL", "PIPE.INIT", "HMAC.REQ", "TRUNC", "REDUCE"]

/-- R98: an operand of ENC.BYTE or DEC.CHAR is 0..255; an operand on a command that takes none is refused; a
mnemonic that is none of the thirteen spells no word. -/
def CommandText.wf (t : CommandText) : Bool :=
  match t.operand with
  | some v => operandMnemonics.contains t.mnemonic && decide (v ≤ 255)
  | none => plainMnemonics.contains t.mnemonic

end Sys2Proof
end

