-- ==== Sys2Proof/Decode.lean ====
section
/-!
DEFINITION. The command decoder, total on all 2^32 words (30_encoding.md R101), its encoder, and the opcode table.
-/

namespace Sys2Proof

/-- Why a word is illegal (R94). The block reports all three the same way, as IllegalCommand (R95). -/
inductive DecodeReject
  /-- OP is none of the thirteen values of R93. -/
  | undefinedOp
  /-- RSV is not 0. -/
  | reservedNotZero
  /-- IMM8 is not 0 on a command without an operand. -/
  | operandNotZero
  deriving DecidableEq, Repr

/-- OP = w[31:24] (R91). -/
def opField (w : Word) : Byte := w.extractLsb' 24 8

/-- RSV = w[23:8] (R91). -/
def rsvField (w : Word) : BitVec 16 := w.extractLsb' 8 16

/-- IMM8 = w[7:0] (R91). -/
def immField (w : Word) : Byte := w.extractLsb' 0 8

/-- The command an OP value names, given the operand byte (R93). -/
def instrOfOp (op : Byte) (imm : Byte) : Option Instr :=
  match op with
  | 0x00#8 => some .nop
  | 0x01#8 => some .eclr
  | 0x02#8 => some .srst
  | 0x10#8 => some .encInit
  | 0x11#8 => some (.encByte imm)
  | 0x12#8 => some .encFinal
  | 0x20#8 => some .decInit
  | 0x21#8 => some (.decChar imm)
  | 0x22#8 => some .decFinal
  | 0x30#8 => some .pipeInit
  | 0x31#8 => some .hmacReq
  | 0x32#8 => some .trunc
  | 0x33#8 => some .reduce
  | _ => none

/-- The decode function (R101): legality per R94, then the command OP names. -/
def decode (w : Word) : Except DecodeReject Instr :=
  match instrOfOp (opField w) (immField w) with
  | none => .error .undefinedOp
  | some i =>
    if rsvField w ≠ 0 then .error .reservedNotZero
    else if i.operand = none ∧ immField w ≠ 0 then .error .operandNotZero
    else .ok i

/-- The decoder on a row of spec/opcode_table.json: the bits of `w`, in a row of `nbits` bits, every bit above them 0.
A command is one 32-bit word (R90), given to the block as one bus datum, so no byte order enters. -/
def decodeTableWord (nbits w : Nat) : Option Instr :=
  if w % 2 ^ nbits < 2 ^ 32 then
    match decode (BitVec.ofNat 32 (w % 2 ^ nbits)) with
    | .ok i => some i
    | .error _ => none
  else none

/-- OP of a command (R93). -/
def Instr.opcode : Instr → Byte
  | .nop => 0x00#8
  | .eclr => 0x01#8
  | .srst => 0x02#8
  | .encInit => 0x10#8
  | .encByte _ => 0x11#8
  | .encFinal => 0x12#8
  | .decInit => 0x20#8
  | .decChar _ => 0x21#8
  | .decFinal => 0x22#8
  | .pipeInit => 0x30#8
  | .hmacReq => 0x31#8
  | .trunc => 0x32#8
  | .reduce => 0x33#8

/-- The word of a command: OP : 0 : IMM8, with IMM8 = 0 where there is no operand (R91, R93). -/
def encode (i : Instr) : Word := i.opcode ++ 0#16 ++ (i.operand.getD 0)

/-- One row of the opcode map (R93). -/
structure OpcodeRow where
  mnemonic : String
  pattern : Word
  mask : Word
  deriving DecidableEq, Repr

/-- A word is the row's if its masked bits are the row's pattern (R93). -/
def OpcodeRow.accepts (r : OpcodeRow) (w : Word) : Bool := w &&& r.mask == r.pattern

/-- The rows of R93, as the manual lists them. -/
def opcodeTable : List OpcodeRow :=
  [⟨"NOP", 0x00000000#32, 0xFFFFFFFF#32⟩,
   ⟨"ECLR", 0x01000000#32, 0xFFFFFFFF#32⟩,
   ⟨"SRST", 0x02000000#32, 0xFFFFFFFF#32⟩,
   ⟨"ENC.INIT", 0x10000000#32, 0xFFFFFFFF#32⟩,
   ⟨"ENC.BYTE", 0x11000000#32, 0xFFFFFF00#32⟩,
   ⟨"ENC.FINAL", 0x12000000#32, 0xFFFFFFFF#32⟩,
   ⟨"DEC.INIT", 0x20000000#32, 0xFFFFFFFF#32⟩,
   ⟨"DEC.CHAR", 0x21000000#32, 0xFFFFFF00#32⟩,
   ⟨"DEC.FINAL", 0x22000000#32, 0xFFFFFFFF#32⟩,
   ⟨"PIPE.INIT", 0x30000000#32, 0xFFFFFFFF#32⟩,
   ⟨"HMAC.REQ", 0x31000000#32, 0xFFFFFFFF#32⟩,
   ⟨"TRUNC", 0x32000000#32, 0xFFFFFFFF#32⟩,
   ⟨"REDUCE", 0x33000000#32, 0xFFFFFFFF#32⟩]

/-- R94, word for word: OP is one of the thirteen values, RSV is 0, and IMM8 is 0 unless OP is 0x11 or 0x21. -/
def legalWord (w : Word) : Bool :=
  [0x00#8, 0x01#8, 0x02#8, 0x10#8, 0x11#8, 0x12#8, 0x20#8, 0x21#8, 0x22#8, 0x30#8, 0x31#8, 0x32#8, 0x33#8].contains
      (opField w)
    && rsvField w == 0
    && (immField w == 0 || opField w == 0x11#8 || opField w == 0x21#8)

/-- One hexadecimal digit, upper case. -/
def hexDigit (n : Nat) : Char :=
  if n < 10 then Char.ofNat (0x30 + n) else Char.ofNat (0x41 + (n - 10))

/-- The `k` hexadecimal digits of `v`, most significant first. -/
def hexText : Nat → Nat → List Char
  | 0, _ => []
  | k + 1, v => hexText k (v / 16) ++ [hexDigit (v % 16)]

/-- Disassembly (R100): the mnemonic, with IMM8 in hexadecimal where there is an operand; an illegal word as
`.word` and its eight digits. R100 shows one operand, 0x66: that an operand always has two digits, a leading zero
included, and that digits are upper case is the model's choice (log entry 15). -/
def disassemble (w : Word) : String :=
  match decode w with
  | .ok i =>
    match i.operand with
    | some b => i.mnemonic ++ " 0x" ++ String.ofList (hexText 2 b.toNat)
    | none => i.mnemonic
  | .error _ => ".word 0x" ++ String.ofList (hexText 8 w.toNat)

/-- The assembler's reading of a command (R98): refused unless it is well formed. -/
def assembleCommand (t : CommandText) : Option Instr :=
  if t.wf then
    let b : Byte := BitVec.ofNat 8 (t.operand.getD 0)
    [Instr.nop, .eclr, .srst, .encInit, .encByte b, .encFinal, .decInit, .decChar b, .decFinal, .pipeInit, .hmacReq,
      .trunc, .reduce].find? (fun i => i.mnemonic == t.mnemonic)
  else none

end Sys2Proof
end

