-- ==== Sys2Proof/Machine/State.lean ====
section
/-!
DEFINITION. The architectural state (10_state.md R20): every element the spec gives the block, and beside it, as
plain data, the agents that act on it (00_scope.md R5): the host with its program, and the agent moves still to come.
-/

namespace Sys2Proof.Machine

/-- The decode policy, one bit (10_state.md R23, R24): 0 STRICT, 1 STRIP. -/
inductive Policy
  | strict
  | strip
  deriving DecidableEq, Repr

/-- The six error kinds (60_exceptions.md R201). -/
inductive ErrKind
  | invalidCharacter
  | hmacKeyError
  | invalidDigits
  | sequence
  | overflow
  | illegalCommand
  deriving DecidableEq, Repr

/-- The unit an error is raised against (00_scope.md R8). -/
inductive UnitId
  | enc
  | dec
  | pipe
  | noUnit
  deriving DecidableEq, Repr

/-- ENC_ST (R30): OPEN, DONE, ERROR; no other value occurs. -/
inductive EncSt
  | opened
  | done
  | error
  deriving DecidableEq, Repr

/-- DEC_ST (R34): OPEN, PAD, DONE, ERROR. -/
inductive DecSt
  | opened
  | pad
  | done
  | error
  deriving DecidableEq, Repr

/-- PIPE_ST (R39): IDLE, WAIT, TAGGED, TRUNCATED, DONE, ERROR. -/
inductive PipeSt
  | idle
  | wait
  | tagged
  | truncated
  | done
  | error
  deriving DecidableEq, Repr

/-- CFG (R23): the three stored fields. -/
structure Cfg where
  policy : Policy
  alg    : BitVec 2
  digits : BitVec 4
  deriving DecidableEq, Repr

/-- ERRCODE and ERRMULT (R28). `code = none` is ERRCODE = 0. -/
structure ErrRec where
  code : Option ErrKind
  mult : Bool
  deriving DecidableEq, Repr

/-- The encoder (R30 to R33). ENC_LEN is the length of `buf`. -/
structure Encoder where
  st      : EncSt
  acc     : BitVec 4
  nb      : BitVec 3
  inCount : BitVec 7
  buf     : List Byte
  deriving DecidableEq, Repr

/-- The decoder (R34 to R37). DEC_LEN is the length of `buf`. -/
structure Decoder where
  st  : DecSt
  pol : Policy
  acc : BitVec 7
  nb  : BitVec 3
  buf : List Byte
  deriving DecidableEq, Repr

/-- A request at the generator (R41). -/
structure Request where
  seq : BitVec 8
  alg : HashAlg
  key : List Byte
  msg : Vector Byte 8
  deriving DecidableEq, Repr

/-- The pipeline (R38 to R47). `req = none` is REQ = NONE; TAG_LEN is the length of `tagBuf`. -/
structure Pipeline where
  st      : PipeSt
  reqSeq  : BitVec 8
  req     : Option Request
  tagBuf  : List Byte
  offset  : BitVec 4
  binCode : BitVec 31
  code    : BitVec 27
  codeStr : Vector Byte 8
  codeDig : BitVec 4
  deriving DecidableEq, Repr

/-- One statement of a host program at the bus (30_encoding.md R98): a write, a read, or a polling loop that reads
until its condition holds. -/
inductive HostOp
  | wr (waddr : WAddr) (data : Word)
  | rd (waddr : WAddr)
  | pollNe (waddr : WAddr) (mask value : Word)
  | pollEq (waddr : WAddr) (mask value : Word)
  deriving DecidableEq, Repr

/-- The host agent: its program, the position of its next statement, the index of its next transaction (R22, one more
after every transaction, each read of a polling loop included) and the values it has read and kept (R98), oldest first.
None of this is the block's (R20, R22). -/
structure HostAgent where
  program   : List HostOp
  statement : Nat
  pc        : Nat
  reads     : List Word
  deriving DecidableEq, Repr

/-- One event at the HMAC response port (20_memory.md R81). -/
structure Response where
  seq      : BitVec 8
  keyError : Bool
  tag      : Vector Byte 64
  deriving DecidableEq, Repr

/-- One move of an agent (00_scope.md R5). `generator` is the generator's step of 42_hotp_pipeline.md R155, with
HMAC_GEN's answer; `response` is an arbitrary event at the response port (20_memory.md R81), accepted or dropped. -/
inductive Move
  | host
  | generator
  | response (r : Response)
  | reset
  deriving DecidableEq, Repr

/-- The state: the block's elements (R20), then the agents outside it. `schedule` lists the moves still to come,
oldest first (20_memory.md R74: any interleaving is a schedule); when it is empty the host moves. -/
structure State where
  cfg      : Cfg
  ctrLo    : Word
  ctrHi    : Word
  err      : ErrRec
  enc      : Encoder
  dec      : Decoder
  pipe     : Pipeline
  host     : HostAgent
  schedule : List Move
  deriving DecidableEq, Repr

/-- The block never traps and never stops (60_exceptions.md R200): there is no fault, so nothing raises one. -/
inductive Fault
  deriving DecidableEq, Repr

/-- Why an instruction has no meaning in the model. -/
inductive Refusal
  /-- Raised by an arm of `exec` whose instruction is not modelled yet, by name; safe. No arm raises it now. -/
  | notModelled (mnemonic : String)
  deriving DecidableEq, Repr

/-- The state after reset: every element at the value its rule gives (R23 to R47, 70_reset_and_hazards.md R230). The
host and the schedule are the model's own: no program is loaded and no move is waiting (log entries 2 and 3). -/
def State.reset : State where
  cfg := ⟨.strict, 0, 6⟩
  ctrLo := 0
  ctrHi := 0
  err := ⟨none, false⟩
  enc := ⟨.opened, 0, 0, 0, []⟩
  dec := ⟨.opened, .strict, 0, 0, []⟩
  pipe := ⟨.idle, 0, none, [], 0, 0, 0, Vector.replicate 8 0, 0⟩
  host := ⟨[], 0, 0, []⟩
  schedule := []

end Sys2Proof.Machine
end

