-- ==== Sys2Proof/Machine/Operands.lean ====
section
/-!
DEFINITION. How a command's operand byte and the sampled registers are read: the Base32 alphabet, the
classification of a character, the counter's serialisation, and the decoding of CFG's fields.
-/

namespace Sys2Proof.Machine

/-- ALPHA[v] for a 5-bit value v (40_base32_encoder.md R111). -/
def alpha (v : BitVec 5) : Byte :=
  if v.toNat ≤ 25 then BitVec.ofNat 8 (0x41 + v.toNat) else BitVec.ofNat 8 (0x32 + (v.toNat - 26))

/-- Case folding: only 'a'..'z' fold (41_base32_decoder.md R131). -/
def foldCase (c : Byte) : Byte :=
  if 0x61#8 ≤ c ∧ c ≤ 0x7A#8 then c - 0x20#8 else c

/-- The value of a folded character in the alphabet, or none (R131). -/
def symbolValue (u : Byte) : Option (BitVec 5) :=
  if 0x41#8 ≤ u ∧ u ≤ 0x5A#8 then some (BitVec.ofNat 5 (u.toNat - 0x41))
  else if 0x32#8 ≤ u ∧ u ≤ 0x37#8 then some (BitVec.ofNat 5 (u.toNat - 0x32 + 26))
  else none

/-- The class of a character (R131). -/
inductive CharClass
  | symbol (v : BitVec 5)
  | pad
  | other
  deriving DecidableEq, Repr

/-- class(c) (R131). -/
def classify (c : Byte) : CharClass :=
  match symbolValue (foldCase c) with
  | some v => .symbol v
  | none => if c = 0x3D#8 then .pad else .other

/-- The policy a bit names (10_state.md R23). -/
def policyOfBit (b : Bool) : Policy := if b then .strip else .strict

/-- The algorithm CFG.ALG names; 3 names none (10_state.md R25). -/
def algOfBits (a : BitVec 2) : Option HashAlg :=
  match a with
  | 0#2 => some .sha1
  | 1#2 => some .sha256
  | 2#2 => some .sha512
  | _ => none

/-- Digit counts REDUCE accepts (10_state.md R26). -/
def legalDigits (d : BitVec 4) : Bool := d == 6#4 || d == 7#4 || d == 8#4

/-- BE64(C): byte i of the message is C[63 − 8i : 56 − 8i] (42_hotp_pipeline.md R152). -/
def be64 (c : BitVec 64) : Vector Byte 8 := Vector.ofFn fun i => c.extractLsb' (56 - 8 * i.val) 8

/-- The 64-bit counter C = CTR_HI : CTR_LO (10_state.md R27). -/
def counter (s : State) : BitVec 64 := s.ctrHi ++ s.ctrLo

/-- The fields of CFG that a written word sets (20_memory.md R67). -/
def cfgOfWord (data : Word) : Cfg where
  policy := policyOfBit (data.getLsbD 0)
  alg := data.extractLsb' 4 2
  digits := data.extractLsb' 8 4

end Sys2Proof.Machine
end

