-- ==== Sys2Proof/Machine/Flags.lean ====
section
/-!
DEFINITION. The numeric codes of the unit states and error kinds, and STATUS, which is assembled from them on every
read (10_state.md R29). The block has no other flag.
-/

namespace Sys2Proof.Machine

/-- POLICY and DEC_POL as a bit (10_state.md R23, R36). -/
def policyBit : Policy → Bool
  | .strict => false
  | .strip => true

/-- ENC_ST's code (R30). -/
def encStCode : EncSt → BitVec 4
  | .opened => 0
  | .done => 1
  | .error => 2

/-- DEC_ST's code (R34). -/
def decStCode : DecSt → BitVec 4
  | .opened => 0
  | .pad => 1
  | .done => 2
  | .error => 3

/-- PIPE_ST's code (R39). -/
def pipeStCode : PipeSt → BitVec 4
  | .idle => 0
  | .wait => 1
  | .tagged => 2
  | .truncated => 3
  | .done => 4
  | .error => 5

/-- The code of an error kind (60_exceptions.md R201). -/
def errKindCode : ErrKind → BitVec 4
  | .invalidCharacter => 1
  | .hmacKeyError => 2
  | .invalidDigits => 3
  | .sequence => 4
  | .overflow => 5
  | .illegalCommand => 6

/-- ERRCODE (10_state.md R28): 0 when no error is recorded. -/
def errCode (e : ErrRec) : BitVec 4 :=
  match e.code with
  | none => 0
  | some k => errKindCode k

/-- The 2-bit code of an algorithm (10_state.md R25). -/
def algCode : HashAlg → BitVec 2
  | .sha1 => 0
  | .sha256 => 1
  | .sha512 => 2

/-- STATUS (10_state.md R29): ENC_ST in [3:0], DEC_ST in [7:4], PIPE_ST in [11:8], ERRCODE in [15:12], ERRMULT in
[16], zeros above. -/
def statusWord (s : State) : Word :=
  0#15 ++ BitVec.ofBool s.err.mult ++ errCode s.err ++ pipeStCode s.pipe.st ++ decStCode s.dec.st ++ encStCode s.enc.st

end Sys2Proof.Machine
end

