-- ==== Sys2Proof/Machine/Ops.lean ====
section
/-!
DEFINITION. The operations the meanings share: raising an error and leaving it, a unit's INIT, the bit gathering
of the two codecs, the truncation and the decimal rendering.
-/

namespace Sys2Proof.Machine

/-! ### INIT values, and the operations that take them -/

/-- The encoder as ENC.INIT leaves it (40_base32_encoder.md R112). -/
def emptyEncoder : Encoder := ⟨.opened, 0, 0, 0, []⟩

/-- The decoder as DEC.INIT leaves it, with the policy it latches (41_base32_decoder.md R132). -/
def emptyDecoder (pol : Policy) : Decoder := ⟨.opened, pol, 0, 0, []⟩

/-- The pipeline as PIPE.INIT leaves it; REQ_SEQ is kept (42_hotp_pipeline.md R153). -/
def emptyPipeline (reqSeq : BitVec 8) : Pipeline := ⟨.idle, reqSeq, none, [], 0, 0, 0, Vector.replicate 8 0, 0⟩

/-- No error recorded (10_state.md R28). -/
def noError : ErrRec := ⟨none, false⟩

/-- ENC.INIT's effect (R112). -/
def initEncoder (s : State) : State := { s with enc := emptyEncoder }

/-- DEC.INIT's effect: CFG.POLICY is latched (R132). -/
def initDecoder (s : State) : State := { s with dec := emptyDecoder s.cfg.policy }

/-- PIPE.INIT's effect (R153). -/
def initPipeline (s : State) : State := { s with pipe := emptyPipeline s.pipe.reqSeq }

/-- The error record cleared (43_control.md R181). -/
def clearErrors (s : State) : State := { s with err := noError }

/-- SRST's effect (43_control.md R182). -/
def softReset (s : State) : State := clearErrors (initPipeline (initDecoder (initEncoder s)))

/-- The reset input (70_reset_and_hazards.md R230), in the order of its pseudocode. It acts on the block only: the
host and the schedule are outside (log entry 9). -/
def resetBlock (s : State) : State :=
  softReset { s with cfg := ⟨.strict, 0, 6⟩, ctrLo := 0, ctrHi := 0, pipe := { s.pipe with reqSeq := 0 } }

/-! ### Taking an error -/

/-- The record after one more error (60_exceptions.md R202): the first kind stays, a later error sets ERRMULT. -/
def recordError (k : ErrKind) (e : ErrRec) : ErrRec :=
  match e.code with
  | none => { e with code := some k }
  | some _ => { e with mult := true }

/-- `enter_error(unit)` (60_exceptions.md R203): the unit's data at its INIT values, its state ERROR; DEC_POL and
REQ_SEQ kept, a pending request withdrawn. -/
def enterError (u : UnitId) (s : State) : State :=
  match u with
  | .enc => { s with enc := { emptyEncoder with st := .error } }
  | .dec => { s with dec := { emptyDecoder s.dec.pol with st := .error } }
  | .pipe => { s with pipe := { emptyPipeline s.pipe.reqSeq with st := .error } }
  | .noUnit => s

/-- `raise E(unit)` (60_exceptions.md R202), this hardware's taking of an exception. -/
def raise (k : ErrKind) (u : UnitId) (s : State) : State :=
  enterError u { s with err := recordError k s.err }

/-! ### Base32 bit gathering -/

/-- The loop of ENC.BYTE (40_base32_encoder.md R113) on the `n`-bit number `a`: while n ≥ 5, emit the symbol of the
five most significant of the `n` bits. Answers the symbols and the bits left. `fuel` bounds the turns; `n` is enough. -/
def emitSymbols (a : Nat) : (fuel : Nat) → (n : Nat) → List Byte × Nat
  | 0, n => ([], n)
  | fuel + 1, n =>
    if 5 ≤ n then
      let rest := emitSymbols a fuel (n - 5)
      (alpha (BitVec.ofNat 5 (a >>> (n - 5))) :: rest.1, rest.2)
    else ([], n)

/-- ENC.BYTE on an encoder that accepts the byte (R113): the byte below the pending bits, complete groups emitted. -/
def appendByte (b : Byte) (e : Encoder) : Encoder :=
  let a := (e.acc.toNat <<< 8) ||| b.toNat
  let n := e.nb.toNat + 8
  let out := emitSymbols a n n
  { e with
    buf := e.buf ++ out.1
    acc := BitVec.ofNat 4 (a &&& ((1 <<< out.2) - 1))
    nb := BitVec.ofNat 3 out.2
    inCount := e.inCount + 1 }

/-- The symbol of the last partial group, zero bits on its right (40_base32_encoder.md R114). -/
def finalSymbols (e : Encoder) : List Byte :=
  if 0 < e.nb.toNat then [alpha (BitVec.ofNat 5 (e.acc.toNat <<< (5 - e.nb.toNat)))] else []

/-- The pending bits of the decoder with a symbol's five below them (41_base32_decoder.md R133). -/
def gatheredBits (v : BitVec 5) (d : Decoder) : Nat := (d.acc.toNat <<< 5) ||| v.toNat

/-- Whether a symbol completes a byte (R133). -/
def completesByte (d : Decoder) : Bool := 8 ≤ d.nb.toNat + 5

/-- DEC.CHAR on a decoder that takes the symbol `v` (R133): the byte it completes, if any, appended. -/
def appendSymbol (v : BitVec 5) (d : Decoder) : Decoder :=
  let a := gatheredBits v d
  let n := d.nb.toNat + 5
  if completesByte d then
    { d with
      buf := d.buf ++ [BitVec.ofNat 8 (a >>> (n - 8))]
      acc := BitVec.ofNat 7 (a &&& ((1 <<< (n - 8)) - 1))
      nb := BitVec.ofNat 3 (n - 8) }
  else
    { d with
      acc := BitVec.ofNat 7 (a &&& ((1 <<< n) - 1))
      nb := BitVec.ofNat 3 n }

/-! ### Truncation, reduction, rendering -/

/-- TAG_BUF[i]. Beyond the end, which no reachable state reads, a free value (log entry 8). -/
def tagByte (tag : List Byte) (i : Nat) : Byte := tag.getD i (Config.absentTagByte tag i)

/-- The offset: the low four bits of the tag's last byte (42_hotp_pipeline.md R157). -/
def truncOffset (tag : List Byte) : BitVec 4 := (tagByte tag (tag.length - 1)).setWidth 4

/-- The 31-bit value at an offset, its first byte's top bit masked off (R157). -/
def truncValue (tag : List Byte) (off : Nat) : BitVec 31 :=
  (tagByte tag off).setWidth 7 ++ tagByte tag (off + 1) ++ tagByte tag (off + 2) ++ tagByte tag (off + 3)

/-- Digit i of DECSTR(v, d) (42_hotp_pipeline.md R159). -/
def decDigit (v d i : Nat) : Byte := BitVec.ofNat 8 (0x30 + v / 10 ^ (d - 1 - i) % 10)

/-- CODE_STR for a code of d digits: DECSTR(v, d), then 0x00 (42_hotp_pipeline.md R158, R159). -/
def codeString (v d : Nat) : Vector Byte 8 := Vector.ofFn fun i => if i.val < d then decDigit v d i.val else 0

end Sys2Proof.Machine
end

