-- ==== Sys2Proof/Machine/Control.lean ====
section
/-!
DEFINITION. The control commands (43_control.md).
-/

namespace Sys2Proof.Machine

/-- NOP (R180). -/
def execNop (s : State) : Host.Outcome State Fault Refusal := .next s

/-- ECLR (R181). -/
def execEclr (s : State) : Host.Outcome State Fault Refusal := .next (clearErrors s)

/-- SRST (R182). -/
def execSrst (s : State) : Host.Outcome State Fault Refusal := .next (softReset s)

end Sys2Proof.Machine
end

