-- ==== Sys2Proof/Machine/Decoder.lean ====
section
/-!
DEFINITION. The decoder commands (41_base32_decoder.md). The capacity is an argument of the operation (00_scope.md
R6); the meaning passes this hardware's.
-/

namespace Sys2Proof.Machine

/-- DEC.INIT (R132). -/
def execDecInit (s : State) : Host.Outcome State Fault Refusal := .next (initDecoder s)

/-- DEC.CHAR's SYMBOL case in state OPEN, with a capacity of `cap` bytes (R133): the overflow check happens only when
a byte would be completed. -/
def takeSymbol (cap : Nat) (v : BitVec 5) (s : State) : State :=
  if completesByte s.dec ∧ s.dec.buf.length = cap then raise .overflow .dec s
  else { s with dec := appendSymbol v s.dec }

/-- DEC.CHAR in state OPEN or PAD, by the character's class (R133). -/
def takeClass (cap : Nat) (k : CharClass) (s : State) : State :=
  match k with
  | .symbol v => if s.dec.st = .pad then raise .invalidCharacter .dec s else takeSymbol cap v s
  | .pad =>
    match s.dec.pol with
    | .strict => { s with dec := { s.dec with st := .pad } }
    | .strip => s
  | .other =>
    match s.dec.pol with
    | .strict => raise .invalidCharacter .dec s
    | .strip => s

/-- DEC.CHAR with a capacity of `cap` bytes (R133, R204). -/
def decCharWith (cap : Nat) (c : Byte) (s : State) : State :=
  match s.dec.st with
  | .error => s
  | .done => raise .sequence .dec s
  | .opened => takeClass cap (classify c) s
  | .pad => takeClass cap (classify c) s

/-- DEC.CHAR (R133). -/
def execDecChar (c : Byte) (s : State) : Host.Outcome State Fault Refusal := .next (decCharWith Config.decCap c s)

/-- DEC.FINAL's effect in state OPEN or PAD (R134). -/
def finishDecode (s : State) : State := { s with dec := { s.dec with acc := 0, nb := 0, st := .done } }

/-- DEC.FINAL (R134, R204). -/
def execDecFinal (s : State) : Host.Outcome State Fault Refusal :=
  match s.dec.st with
  | .error => .next s
  | .done => .next (raise .sequence .dec s)
  | .opened => .next (finishDecode s)
  | .pad => .next (finishDecode s)

end Sys2Proof.Machine
end

