-- ==== Sys2Proof/Machine/Encoder.lean ====
section
/-!
DEFINITION. The encoder commands (40_base32_encoder.md). The capacity is an argument of the operation (00_scope.md
R6); the meaning passes this hardware's.
-/

namespace Sys2Proof.Machine

/-- ENC.INIT (R112). -/
def execEncInit (s : State) : Host.Outcome State Fault Refusal := .next (initEncoder s)

/-- ENC.BYTE with a capacity of `cap` bytes (R113, R204). -/
def encByteWith (cap : Nat) (b : Byte) (s : State) : State :=
  match s.enc.st with
  | .error => s
  | .done => raise .sequence .enc s
  | .opened =>
    if s.enc.inCount.toNat = cap then raise .overflow .enc s
    else { s with enc := appendByte b s.enc }

/-- ENC.BYTE (R113). -/
def execEncByte (b : Byte) (s : State) : Host.Outcome State Fault Refusal := .next (encByteWith Config.encCap b s)

/-- ENC.FINAL (R114, R204). -/
def execEncFinal (s : State) : Host.Outcome State Fault Refusal :=
  match s.enc.st with
  | .error => .next s
  | .done => .next (raise .sequence .enc s)
  | .opened =>
    .next { s with enc := { s.enc with buf := s.enc.buf ++ finalSymbols s.enc, acc := 0, nb := 0, st := .done } }

end Sys2Proof.Machine
end

