-- ==== Sys2Proof/Machine/Pipeline.lean ====
section
/-!
DEFINITION. The pipeline commands (42_hotp_pipeline.md).
-/

namespace Sys2Proof.Machine

/-- PIPE.INIT (R153). -/
def execPipeInit (s : State) : Host.Outcome State Fault Refusal := .next (initPipeline s)

/-- HMAC.REQ's accepted case (R154): REQ_SEQ + 1, the snapshot, every result cleared. -/
def issueRequest (alg : HashAlg) (s : State) : State :=
  let seq := s.pipe.reqSeq + 1
  { s with pipe := { emptyPipeline seq with st := .wait, req := some ⟨seq, alg, s.dec.buf, be64 (counter s)⟩ } }

/-- HMAC.REQ's checks after the state check (R154): the key finished, then the algorithm. -/
def requestHmac (s : State) : State :=
  if s.dec.st ≠ .done then raise .sequence .pipe s
  else
    match algOfBits s.cfg.alg with
    | none => raise .hmacKeyError .pipe s
    | some alg => issueRequest alg s

/-- HMAC.REQ (R154, R204). -/
def execHmacReq (s : State) : Host.Outcome State Fault Refusal :=
  match s.pipe.st with
  | .error => .next s
  | .wait => .next (raise .sequence .pipe s)
  | .idle => .next (requestHmac s)
  | .tagged => .next (requestHmac s)
  | .truncated => .next (requestHmac s)
  | .done => .next (requestHmac s)

/-- TRUNC's effect in state TAGGED (R157). -/
def truncateTag (s : State) : State :=
  let off := truncOffset s.pipe.tagBuf
  { s with
    pipe := { s.pipe with
      offset := off
      binCode := truncValue s.pipe.tagBuf off.toNat
      st := .truncated } }

/-- TRUNC (R157, R204). -/
def execTrunc (s : State) : Host.Outcome State Fault Refusal :=
  match s.pipe.st with
  | .error => .next s
  | .tagged => .next (truncateTag s)
  | .idle => .next (raise .sequence .pipe s)
  | .wait => .next (raise .sequence .pipe s)
  | .truncated => .next (raise .sequence .pipe s)
  | .done => .next (raise .sequence .pipe s)

/-- REDUCE in state TRUNCATED or DONE (R158): the digit check, then CODE, CODE_STR and CODE_DIG. -/
def reduceCode (s : State) : State :=
  if legalDigits s.cfg.digits then
    let d := s.cfg.digits.toNat
    let v := s.pipe.binCode.toNat % 10 ^ d
    { s with
      pipe := { s.pipe with
        code := BitVec.ofNat 27 v
        codeStr := codeString v d
        codeDig := s.cfg.digits
        st := .done } }
  else raise .invalidDigits .pipe s

/-- REDUCE (R158, R204). -/
def execReduce (s : State) : Host.Outcome State Fault Refusal :=
  match s.pipe.st with
  | .error => .next s
  | .truncated => .next (reduceCode s)
  | .done => .next (reduceCode s)
  | .idle => .next (raise .sequence .pipe s)
  | .wait => .next (raise .sequence .pipe s)
  | .tagged => .next (raise .sequence .pipe s)

end Sys2Proof.Machine
end

