-- ==== Sys2Proof/Machine/Dispatch.lean ====
section
/-! DEFINITION. One arm per command (30_encoding.md R101). -/

namespace Sys2Proof.Machine

def exec (i : Instr) (s : State) : Host.Outcome State Fault Refusal :=
  match i with
  | .nop => Sys2Proof.Machine.execNop s
  | .eclr => Sys2Proof.Machine.execEclr s
  | .srst => Sys2Proof.Machine.execSrst s
  | .encInit => Sys2Proof.Machine.execEncInit s
  | .encByte b => Sys2Proof.Machine.execEncByte b s
  | .encFinal => Sys2Proof.Machine.execEncFinal s
  | .decInit => Sys2Proof.Machine.execDecInit s
  | .decChar c => Sys2Proof.Machine.execDecChar c s
  | .decFinal => Sys2Proof.Machine.execDecFinal s
  | .pipeInit => Sys2Proof.Machine.execPipeInit s
  | .hmacReq => Sys2Proof.Machine.execHmacReq s
  | .trunc => Sys2Proof.Machine.execTrunc s
  | .reduce => Sys2Proof.Machine.execReduce s

end Sys2Proof.Machine
end

