-- ==== Sys2Proof/Machine/Registers.lean ====
section
/-!
DEFINITION. What a host read returns (20_memory.md R64 to R72), and what the block presents on the HMAC request port
(R80).
-/

namespace Sys2Proof.Machine

/-- lane(i): byte i of a buffer, 0x00 at or beyond its length (R70). -/
def lane (buf : List Byte) (i : Nat) : Byte := buf.getD i 0

/-- Word k of a window over `buf`, little-endian lanes (R70). -/
def windowWord (buf : List Byte) (k : Nat) : Word :=
  lane buf (4 * k + 3) ++ lane buf (4 * k + 2) ++ lane buf (4 * k + 1) ++ lane buf (4 * k)

/-- The length of a buffer as its 7-bit length register shows it (R69). In states that break R49, where the length may
need more bits, the low seven are the model's choice (log entry 10). -/
def lengthWord (buf : List Byte) : Word := (BitVec.ofNat 7 buf.length).setWidth 32

/-- CFG as it reads (10_state.md R23, R67): DIGITS in [11:8], ALG in [5:4], POLICY in [0]. -/
def cfgWord (c : Cfg) : Word := 0#20 ++ c.digits ++ 0#2 ++ c.alg ++ 0#3 ++ BitVec.ofBool (policyBit c.policy)

/-- Register ENC_ACC (R71): ENC_IN in [22:16], ENC_NB in [10:8], ENC_ACC in [3:0]. -/
def encAccWord (e : Encoder) : Word := 0#9 ++ e.inCount ++ 0#5 ++ e.nb ++ 0#4 ++ e.acc

/-- Register DEC_ACC (R71): DEC_POL in [16], DEC_NB in [10:8], DEC_ACC in [6:0]. -/
def decAccWord (d : Decoder) : Word := 0#15 ++ BitVec.ofBool (policyBit d.pol) ++ 0#5 ++ d.nb ++ 0#1 ++ d.acc

/-- CAPS for given capacities (10_state.md R48). -/
def capsWord (encCap decCap : Nat) : Word :=
  Config.commandSetVersion ++ BitVec.ofNat 8 (Config.symCap encCap) ++ BitVec.ofNat 8 decCap ++ BitVec.ofNat 8 encCap

/-- BusRead (R62): the read value of the register, reserved word or window word at `a` (R64). It changes no state. -/
def busRead (a : WAddr) (s : State) : Word :=
  match a.toNat with
  | 0 => 0
  | 1 => statusWord s
  | 2 => cfgWord s.cfg
  | 3 => s.ctrLo
  | 4 => s.ctrHi
  | 5 => lengthWord s.enc.buf
  | 6 => encAccWord s.enc
  | 7 => lengthWord s.dec.buf
  | 8 => decAccWord s.dec
  | 9 => lengthWord s.pipe.tagBuf
  | 10 => s.pipe.offset.setWidth 32
  | 11 => s.pipe.binCode.setWidth 32
  | 12 => s.pipe.code.setWidth 32
  | 13 => windowWord s.pipe.codeStr.toList 0
  | 14 => windowWord s.pipe.codeStr.toList 1
  | 15 => s.pipe.codeDig.setWidth 32
  | 16 => s.pipe.reqSeq.setWidth 32
  | 17 => capsWord Config.encCap Config.decCap
  | n =>
    if n < 64 then 0
    else if n < 96 then windowWord s.enc.buf (n - 64)
    else if n < 112 then windowWord s.dec.buf (n - 96)
    else windowWord s.pipe.tagBuf (n - 112)

/-- The signals of the HMAC request port (R80). -/
structure RequestPort where
  valid  : Bool
  seq    : BitVec 8
  alg    : BitVec 2
  keyLen : BitVec 7
  key    : Vector Byte 64
  msg    : Vector Byte 8
  deriving DecidableEq, Repr

/-- The HMAC request port as a function of the state (R80). R80 gives hreq_msg no value while REQ = NONE: it is a free
value then (log entry 16). -/
def requestPort (s : State) : RequestPort where
  valid := s.pipe.st = .wait
  seq := match s.pipe.req with | none => 0 | some r => r.seq
  alg := match s.pipe.req with | none => 0 | some r => algCode r.alg
  keyLen := match s.pipe.req with | none => 0 | some r => BitVec.ofNat 7 r.key.length
  key := Vector.ofFn fun i => match s.pipe.req with | none => 0 | some r => lane r.key i.val
  msg := match s.pipe.req with | none => Config.idleMessage s.pipe.reqSeq | some r => r.msg

end Sys2Proof.Machine
end

