-- ==== Sys2Proof/Machine/Bus.lean ====
section
/-!
DEFINITION. The steps of the three agents (00_scope.md R5): a host transaction (20_memory.md R61, R62), the
generator's answer (R81, 42_hotp_pipeline.md R155, R156) and reset (70_reset_and_hazards.md R230).
-/

namespace Sys2Proof.Machine

/-- The word address of CMD (20_memory.md R64). -/
def cmdAddr : WAddr := 0

/-- The write of a command word to CMD (30_encoding.md R101): an illegal word raises IllegalCommand against no unit
(R95), before any other check (60_exceptions.md R206). -/
def executeWord (w : Word) (s : State) : Host.Outcome State Fault Refusal :=
  match decode w with
  | .ok i => exec i s
  | .error _ => .next (raise .illegalCommand .noUnit s)

/-- BusWrite (20_memory.md R61, R64 to R68): a write to any other word has no effect. -/
def busWrite (a : WAddr) (data : Word) (s : State) : Host.Outcome State Fault Refusal :=
  match a.toNat with
  | 0 => executeWord data s
  | 2 => .next { s with cfg := cfgOfWord data }
  | 3 => .next { s with ctrLo := data }
  | 4 => .next { s with ctrHi := data }
  | _ => .next s

/-- The acceptance of a tag for the pending request (42_hotp_pipeline.md R155). -/
def acceptTag (t : List Byte) (s : State) : State :=
  { s with pipe := { s.pipe with tagBuf := t, req := none, st := .tagged } }

/-- The generator's step (42_hotp_pipeline.md R155): HMAC_GEN's answer to the pending request. It is enabled in
state WAIT only; elsewhere there is no such step and nothing changes (R156, log entry 5). -/
def generatorStep (s : State) : State :=
  match s.pipe.st, s.pipe.req with
  | .wait, some r =>
    match Config.hmacGen r.alg r.key r.msg with
    | .tag t => acceptTag t.toList s
    | .keyError => raise .hmacKeyError .pipe s
  | _, _ => s

/-- One event at the response port (20_memory.md R81): accepted if and only if a request is pending with the same
sequence number; the tag is the first TAGLEN bytes of the field. Any other event is dropped (R156). -/
def respond (r : Response) (s : State) : State :=
  match s.pipe.st, s.pipe.req with
  | .wait, some q =>
    if r.seq = q.seq then
      if r.keyError then raise .hmacKeyError .pipe s else acceptTag (r.tag.toList.take (tagLen q.alg)) s
    else s
  | _, _ => s

/-- The host keeps the value it reads (30_encoding.md R98). -/
def keepRead (v : Word) (s : State) : State := { s with host := { s.host with reads := s.host.reads ++ [v] } }

/-- The host has made one transaction: the index of the next one is one more (10_state.md R22). -/
def countTransaction (s : State) : State := { s with host := { s.host with pc := s.host.pc + 1 } }

/-- The host has made one transaction and goes on to its next statement (10_state.md R22). -/
def advanceHost (s : State) : State :=
  countTransaction { s with host := { s.host with statement := s.host.statement + 1 } }

/-- One read of a polling loop (30_encoding.md R98): one transaction, its value kept; the host goes on to its next
statement exactly if `leaves` holds of the value (log entry 12). -/
def pollRead (a : WAddr) (leaves : Word → Bool) (s : State) : State :=
  keepRead (busRead a s) (if leaves (busRead a s) then advanceHost s else countTransaction s)

/-- One bus transaction of the host's program (30_encoding.md R98). -/
def hostOp (o : HostOp) (s : State) : Host.Outcome State Fault Refusal :=
  match o with
  | .wr a d => busWrite a d (advanceHost s)
  | .rd a => .next (keepRead (busRead a s) (advanceHost s))
  | .pollNe a m v => .next (pollRead a (fun x => x &&& m != v) s)
  | .pollEq a m v => .next (pollRead a (fun x => x &&& m == v) s)

/-- The host's step: its next statement. A host whose program has ended issues nothing, and the state holds
(70_reset_and_hazards.md R243, 60_exceptions.md R218). -/
def hostStep (s : State) : Host.Outcome State Fault Refusal :=
  match s.host.program[s.host.statement]? with
  | some o => hostOp o s
  | none => .next s

/-- One agent's move (00_scope.md R5). -/
def agentStep (m : Move) (s : State) : Host.Outcome State Fault Refusal :=
  match m with
  | .host => hostStep s
  | .generator => .next (generatorStep s)
  | .response r => .next (respond r s)
  | .reset => .next (resetBlock s)

/-- The next move of the interleaving (20_memory.md R74): the first one scheduled, and the host's when none is. -/
def nextMove (s : State) : Move × State :=
  match s.schedule with
  | [] => (.host, s)
  | m :: rest => (m, { s with schedule := rest })

/-- A host with `o` inserted in its program where it takes its next statement, and the position of that statement. -/
def insertNext (o : HostOp) (h : HostAgent) : HostAgent :=
  let before := h.program.take h.statement
  { h with program := before ++ o :: h.program.drop h.statement, statement := before.length }

end Sys2Proof.Machine
end

