-- ==== Sys2Proof/Machine/Step.lean ====
section
/-!
DEFINITION. One step of the machine: one agent moves (20_memory.md R74).
-/

namespace Sys2Proof.Machine

/-- One step: the next agent of the interleaving moves, atomically (20_memory.md R74, 60_exceptions.md R207). -/
def step (s : State) : Host.Outcome State Fault Refusal := agentStep (nextMove s).1 (nextMove s).2

/-- `s` with the host about to write the command word `w` to CMD: the statement is put where the host takes its next
one, and the host moves next. Nothing else changes (log entry 3). -/
def State.withFetchWord (s : State) (nbits w : Nat) : State :=
  { s with
    host := insertNext (.wr cmdAddr (BitVec.ofNat 32 (w % 2 ^ nbits))) s.host
    schedule := .host :: s.schedule }

end Sys2Proof.Machine
end

