-- ==== Sys2Proof/Machine/Assembler.lean ====
section
/-!
DEFINITION. Host programs as the manual writes them (30_encoding.md R98, R99): register names, statements,
pseudo-instructions, and the bus statements they spell. It is the host's side; the block sees only the bus.
-/

namespace Sys2Proof.Machine

/-- The named registers (20_memory.md R64). -/
inductive Reg
  | cmd | status | cfg | ctrLo | ctrHi | encLen | encAcc | decLen | decAcc | tagLen | offset | binCode | code
  | codeStr0 | codeStr1 | codeDig | reqSeq | caps
  deriving DecidableEq, Repr

/-- The word address of a register (R64). -/
def regAddr : Reg → WAddr
  | .cmd => 0
  | .status => 1
  | .cfg => 2
  | .ctrLo => 3
  | .ctrHi => 4
  | .encLen => 5
  | .encAcc => 6
  | .decLen => 7
  | .decAcc => 8
  | .tagLen => 9
  | .offset => 10
  | .binCode => 11
  | .code => 12
  | .codeStr0 => 13
  | .codeStr1 => 14
  | .codeDig => 15
  | .reqSeq => 16
  | .caps => 17

/-- The buffer windows (R64). -/
inductive Window
  | encBuf
  | decBuf
  | tagBuf
  deriving DecidableEq, Repr

/-- The base word address of a window (R64). -/
def windowBase : Window → Nat
  | .encBuf => 64
  | .decBuf => 96
  | .tagBuf => 112

/-- A statement (R98) or a pseudo-instruction (R99). Labels and comments spell nothing and have no term. -/
inductive Statement
  | wr (r : Reg) (imm : Word)
  | rd (r : Reg)
  | rdw (w : Window) (k : Nat)
  | command (t : CommandText)
  | pollNe (r : Reg) (mask value : Word)
  | pollEq (r : Reg) (mask value : Word)
  | encStr (text : List Byte)
  | encHex (bytes : List Byte)
  | decStr (text : List Byte)
  | ctrSet (v : BitVec 64)
  | cfgSet (p a d : Word)
  | waitPipe
  | hotpRun
  deriving DecidableEq, Repr

/-- The host write that issues a command (R98). -/
def issue (i : Instr) : HostOp := .wr cmdAddr (encode i)

/-- WAIT.PIPE: POLLNE STATUS, 0x00000F00, 0x00000100 (R99). -/
def waitPipeOp : HostOp := .pollNe (regAddr .status) 0x00000F00#32 0x00000100#32

/-- The bus statements a statement spells (R98, R99); none where the assembler refuses it. RDW reads the word `k` past
its window's base, inside the window or not; a sum above 127 is no word address (20_memory.md R60) and is refused (log
entry 14). CFG.SET takes 32-bit numbers and drops the bits of `d` and `a` that its shifts move above bit 31; R99 does not
say what an assembler does with a value that fits no imm32, so this is the model's choice (log entry 17). -/
def expand : Statement → Option (List HostOp)
  | .wr r imm => some [.wr (regAddr r) imm]
  | .rd r => some [.rd (regAddr r)]
  | .rdw w k => if windowBase w + k < 128 then some [.rd (BitVec.ofNat 7 (windowBase w + k))] else none
  | .command t =>
    match assembleCommand t with
    | some i => some [issue i]
    | none => none
  | .pollNe r m v => some [.pollNe (regAddr r) m v]
  | .pollEq r m v => some [.pollEq (regAddr r) m v]
  | .encStr text => some (text.map fun b => issue (.encByte b))
  | .encHex bytes => some (bytes.map fun b => issue (.encByte b))
  | .decStr text => some (text.map fun c => issue (.decChar c))
  | .ctrSet v => some [.wr (regAddr .ctrLo) (v.extractLsb' 0 32), .wr (regAddr .ctrHi) (v.extractLsb' 32 32)]
  | .cfgSet p a d => some [.wr (regAddr .cfg) ((d <<< 8) ||| (a <<< 4) ||| p)]
  | .waitPipe => some [waitPipeOp]
  | .hotpRun => some [issue .hmacReq, waitPipeOp, issue .trunc, issue .reduce]

/-- The bus program a list of statements spells, if none of them is refused. -/
def assemble : List Statement → Option (List HostOp)
  | [] => some []
  | t :: ts =>
    match expand t, assemble ts with
    | some a, some b => some (a ++ b)
    | _, _ => none

end Sys2Proof.Machine
end

