-- ==== Sys2Proof/Safety.lean ====
section
/-!
DEFINITION. What statements are made of: the invariants of every reachable state (10_state.md R49 and the legal
values of R30 to R47), sequences of commands, and the functions the source gives the codecs and the pipeline
(40_base32_encoder.md R115, 41_base32_decoder.md R135, 42_hotp_pipeline.md R161), written over whole strings.
-/

namespace Sys2Proof.Machine

/-! ### Invariants -/

/-- The encoder's legal values (R30 to R33) and R49 (a), (b), for a capacity of `cap` bytes. -/
structure EncoderInv (cap : Nat) (e : Encoder) : Prop where
  nb_le : e.nb.toNat ≤ 4
  acc_lt : e.acc.toNat < 2 ^ e.nb.toNat
  count_le : e.inCount.toNat ≤ cap
  symbols : ∀ c ∈ e.buf, ∃ v, c = alpha v
  at_open : e.st = .opened →
    e.nb.toNat = 8 * e.inCount.toNat % 5 ∧ e.buf.length = 8 * e.inCount.toNat / 5
  at_done : e.st = .done → e.nb = 0 ∧ e.buf.length = (8 * e.inCount.toNat + 4) / 5
  at_error : e.st = .error → e.nb = 0 ∧ e.buf = [] ∧ e.inCount = 0

/-- The decoder's legal values (R34 to R37) and R49 (c), (d), for a capacity of `cap` bytes. -/
structure DecoderInv (cap : Nat) (d : Decoder) : Prop where
  acc_lt : d.acc.toNat < 2 ^ d.nb.toNat
  len_le : d.buf.length ≤ cap
  at_stream : d.st = .opened ∨ d.st = .pad → ∃ k : Nat, d.buf.length = 5 * k / 8 ∧ d.nb.toNat = 5 * k % 8
  at_done : d.st = .done → d.nb = 0
  at_error : d.st = .error → d.nb = 0 ∧ d.buf = []
  pad_strict : d.st = .pad → d.pol = .strict

/-- The states of the pipeline in which it holds a tag. -/
def holdsTag (st : PipeSt) : Prop := st = .tagged ∨ st = .truncated ∨ st = .done

/-- The states in which OFFSET and BINCODE are valid. -/
def holdsValue (st : PipeSt) : Prop := st = .truncated ∨ st = .done

/-- The pipeline's legal values (R39 to R47) and R49 (e) to (h), for a key capacity of `cap` bytes. -/
structure PipelineInv (cap : Nat) (p : Pipeline) : Prop where
  wait_iff : p.st = .wait ↔ p.req ≠ none
  request : ∀ r, p.req = some r → r.seq = p.reqSeq ∧ r.key.length ≤ cap
  tag_held : holdsTag p.st → ∃ alg, p.tagBuf.length = tagLen alg
  tag_empty : ¬ holdsTag p.st → p.tagBuf = []
  value_held : holdsValue p.st →
    p.offset = truncOffset p.tagBuf ∧ p.binCode = truncValue p.tagBuf p.offset.toNat
  value_zero : ¬ holdsValue p.st → p.offset = 0 ∧ p.binCode = 0
  code_held : p.st = .done →
    legalDigits p.codeDig = true ∧ p.code.toNat = p.binCode.toNat % 10 ^ p.codeDig.toNat ∧
      p.codeStr = codeString p.code.toNat p.codeDig.toNat
  code_zero : p.st ≠ .done → p.code = 0 ∧ p.codeDig = 0 ∧ p.codeStr = Vector.replicate 8 0

/-- R49 (i). -/
def ErrRec.Inv (e : ErrRec) : Prop := e.mult = true → e.code ≠ none

/-- Every reachable state of the block (R49, R50), for this hardware's capacities. -/
structure State.Inv (s : State) : Prop where
  err : s.err.Inv
  enc : EncoderInv Config.encCap s.enc
  dec : DecoderInv Config.decCap s.dec
  pipe : PipelineInv Config.decCap s.pipe

/-! ### Sequences of commands -/

/-- The commands of a list executed one after the other. -/
def execAll : List Instr → State → Host.Outcome State Fault Refusal
  | [], s => .next s
  | i :: is, s =>
    match exec i s with
    | .next t => execAll is t
    | .fault r => .fault r
    | .refused r => .refused r

/-- `n` steps of the machine, stopping at a fault or a refusal. -/
def runSteps : Nat → State → Host.Outcome State Fault Refusal
  | 0, s => .next s
  | n + 1, s =>
    match step s with
    | .next t => runSteps n t
    | .fault r => .fault r
    | .refused r => .refused r

/-- The encode stream of a byte string (40_base32_encoder.md R110, R115). -/
def encodeStream (bytes : List Byte) : List Instr := .encInit :: (bytes.map .encByte ++ [.encFinal])

/-- The decode stream of a text (41_base32_decoder.md R130, R135). -/
def decodeStream (text : List Byte) : List Instr := .decInit :: (text.map .decChar ++ [.decFinal])

/-- A command of the encoder (30_encoding.md R93), or SRST, which acts on every unit. -/
def actsOnEncoder : Instr → Bool
  | .encInit => true
  | .encByte _ => true
  | .encFinal => true
  | .srst => true
  | .nop => false
  | .eclr => false
  | .decInit => false
  | .decChar _ => false
  | .decFinal => false
  | .pipeInit => false
  | .hmacReq => false
  | .trunc => false
  | .reduce => false

/-- A command of the decoder, or SRST. -/
def actsOnDecoder : Instr → Bool
  | .decInit => true
  | .decChar _ => true
  | .decFinal => true
  | .srst => true
  | .nop => false
  | .eclr => false
  | .encInit => false
  | .encByte _ => false
  | .encFinal => false
  | .pipeInit => false
  | .hmacReq => false
  | .trunc => false
  | .reduce => false

/-- A command of the pipeline, or SRST. -/
def actsOnPipeline : Instr → Bool
  | .pipeInit => true
  | .hmacReq => true
  | .trunc => true
  | .reduce => true
  | .srst => true
  | .nop => false
  | .eclr => false
  | .encInit => false
  | .encByte _ => false
  | .encFinal => false
  | .decInit => false
  | .decChar _ => false
  | .decFinal => false

/-! ### The source's functions, over whole strings -/

/-- The number a byte string is, first byte most significant (R115). -/
def bytesValue (bytes : List Byte) : Nat := bytes.foldl (fun x b => 256 * x + b.toNat) 0

/-- The source's `encode` (R115): the string's bits with p zero bits after them, cut into 5-bit groups. -/
def sourceEncode (bytes : List Byte) : List Byte :=
  let n := bytes.length
  let len := (8 * n + 4) / 5
  let x := bytesValue bytes * 2 ^ (5 * len - 8 * n)
  (List.range len).map fun j => alpha (BitVec.ofNat 5 (x / 2 ^ (5 * len - 5 * j - 5)))

/-- The symbol values of a text, its OTHER and PAD characters removed and the rest folded (R135). -/
def symbolsOf (text : List Byte) : List (BitVec 5) :=
  text.filterMap fun c => match classify c with
    | .symbol v => some v
    | .pad => none
    | .other => none

/-- The number a string of symbol values is, first symbol most significant (R135). -/
def symbolsValue (vs : List (BitVec 5)) : Nat := vs.foldl (fun x v => 32 * x + v.toNat) 0

/-- The first floor(5k/8) bytes of the symbols' bit string (R135). -/
def sourceDecodeBytes (vs : List (BitVec 5)) : List Byte :=
  let k := vs.length
  (List.range (5 * k / 8)).map fun i => BitVec.ofNat 8 (symbolsValue vs / 2 ^ (5 * k - 8 * i - 8))

/-- A text that STRICT rejects (R135 (b)): it holds an OTHER character, or a PAD character followed later by a SYMBOL. -/
def strictRejects (text : List Byte) : Prop :=
  (∃ c ∈ text, classify c = .other) ∨
    ∃ before after : List Byte, ∃ c : Byte,
      text = before ++ c :: after ∧ classify c = .pad ∧ ∃ x ∈ after, ∃ v, classify x = .symbol v

/-- binCode of the source's step 4, as a number (R157). -/
def sourceBinCode (tag : List Byte) : Nat :=
  let off := (tag.getD (tag.length - 1) 0).toNat % 16
  (tag.getD off 0).toNat % 128 * 2 ^ 24 + (tag.getD (off + 1) 0).toNat * 2 ^ 16 + (tag.getD (off + 2) 0).toNat * 2 ^ 8 +
    (tag.getD (off + 3) 0).toNat

/-- The value of a string of ASCII decimal digits. -/
def decimalValue (text : List Byte) : Nat := text.foldl (fun x b => 10 * x + (b.toNat - 0x30)) 0

/-- `text` is the code of `v` at `d` digits (42_hotp_pipeline.md R159): d ASCII decimal digits whose value is `v`. -/
def IsCode (text : List Byte) (v d : Nat) : Prop :=
  text.length = d ∧ (∀ b ∈ text, 0x30 ≤ b.toNat ∧ b.toNat ≤ 0x39) ∧ decimalValue text = v

/-- The generator has a step in `s` (42_hotp_pipeline.md R155): a request is pending. -/
def generatorEnabled (s : State) : Prop := s.pipe.st = .wait

end Sys2Proof.Machine
end

