-- ==== Sys2Proof/Certificates/Slice0/Obligations.lean ====
section
/-!
DEFINITION. The statements for the provers. Each docstring names the rules of spec/ it states. `raise` is the
operation of 60_exceptions.md R202; what it does is itself a statement (RaiseRecordsTheErrorAndEmptiesTheUnit).
-/

open Sys2Proof Sys2Proof.Machine

/-! ### Encoding and decoding -/

/-- R93, R101: a word decodes to a command exactly if it is that command's word. -/
def Obligations.DecodeAndEncodeAgree : Prop :=
  ∀ (w : Word) (i : Instr), decode w = .ok i ↔ i.wf = true ∧ encode i = w

/-- R94: which words are legal, and how many. -/
def Obligations.LegalWordsAreTheDecodedOnes : Prop :=
  (∀ w : Word, (∃ i, decode w = .ok i) ↔ legalWord w = true) ∧
    ∃ words : List Word, words.Nodup ∧ words.length = 11 + 2 * 256 ∧ ∀ w, w ∈ words ↔ legalWord w = true

/-- R93: the opcode map's rows overlap nowhere, and the row that accepts a word names its command. -/
def Obligations.OneRowOfTheOpcodeMapPerLegalWord : Prop :=
  (∀ w : Word, (∃ r ∈ opcodeTable, r.accepts w = true) ↔ legalWord w = true) ∧
    (∀ (w : Word), ∀ r ∈ opcodeTable, ∀ q ∈ opcodeTable, r.accepts w = true → q.accepts w = true → r = q) ∧
    ∀ (w : Word) (i : Instr), decode w = .ok i →
      ∃ r ∈ opcodeTable, r.accepts w = true ∧ r.mnemonic = i.mnemonic ∧ ∀ b, i.operand = some b → b = immField w

/-- R93: words written out from the table. -/
def Obligations.WordsOfTheOpcodeMapDecode : Prop :=
  decode 0x00000000#32 = .ok .nop ∧ decode 0x02000000#32 = .ok .srst ∧ decode 0x11000066#32 = .ok (.encByte 0x66#8) ∧
    decode 0x12000000#32 = .ok .encFinal ∧ decode 0x2100005A#32 = .ok (.decChar 0x5A#8) ∧
    decode 0x31000000#32 = .ok .hmacReq ∧ decode 0x33000000#32 = .ok .reduce

/-- R61, R66, R101: when the host writes CMD with a word that decodes to a command, the step is that command, after the
host has gone on to its next statement. That the host moves when nothing is scheduled is the model's choice (log entry
2), and so are the list that holds its program and the position in it (log entry 3). -/
def Obligations.StepRunsTheDecodedCommand : Prop :=
  ∀ (s : State) (rest : List Move) (w : Word) (i : Instr),
    (s.schedule = .host :: rest ∨ s.schedule = [] ∧ rest = []) →
    s.host.program[s.host.statement]? = some (.wr 0 w) → i.wf = true → decode w = .ok i →
    step s = exec i { s with
      schedule := rest
      host := { s.host with statement := s.host.statement + 1, pc := s.host.pc + 1 } }

/-- The word put in place by `withFetchWord` is the very next command, from every state, and the host's program goes on
after it as before (log entry 3). -/
def Obligations.PlacedWordRunsNext : Prop :=
  ∀ (s : State) (i : Instr), ∃ program position, program.drop position = s.host.program.drop s.host.statement ∧
    step (s.withFetchWord 32 (encode i).toNat) =
      exec i { s with host := ⟨program, position, s.host.pc + 1, s.host.reads⟩ }

/-- R95: an illegal word records IllegalCommand and changes no other state. -/
def Obligations.IllegalWordOnlyRecordsTheError : Prop :=
  ∀ (w : Word) (s : State), legalWord w = false →
    busWrite 0 w s = .next { s with err := recordError .illegalCommand s.err } ∧
      (errCode s.err = 0 → errCode (recordError .illegalCommand s.err) = 6 ∧
        (recordError .illegalCommand s.err).mult = s.err.mult) ∧
      (errCode s.err ≠ 0 → errCode (recordError .illegalCommand s.err) = errCode s.err ∧
        (recordError .illegalCommand s.err).mult = true)

/-! ### Errors -/

/-- R202, R203: `raise` records the first kind, marks later ones, and returns the unit to its INIT values in ERROR. -/
def Obligations.RaiseRecordsTheErrorAndEmptiesTheUnit : Prop :=
  ∀ (k : ErrKind) (s : State),
    let r := if errCode s.err = 0 then (⟨some k, s.err.mult⟩ : ErrRec) else ⟨s.err.code, true⟩
    raise k .enc s = { s with err := r, enc := ⟨.error, 0, 0, 0, []⟩ } ∧
    raise k .dec s = { s with err := r, dec := ⟨.error, s.dec.pol, 0, 0, []⟩ } ∧
    raise k .pipe s =
      { s with err := r, pipe := ⟨.error, s.pipe.reqSeq, none, [], 0, 0, 0, Vector.replicate 8 0, 0⟩ } ∧
    raise k .noUnit s = { s with err := r }

/-- R204: a command addressed to a unit in ERROR, other than its INIT and SRST, has no effect; an illegal word still
raises IllegalCommand. -/
def Obligations.UnitsInErrorIgnoreTheirCommands : Prop :=
  ∀ (s : State) (b : Byte) (w : Word),
    (s.enc.st = .error → exec (.encByte b) s = .next s ∧ exec .encFinal s = .next s) ∧
    (s.dec.st = .error → exec (.decChar b) s = .next s ∧ exec .decFinal s = .next s) ∧
    (s.pipe.st = .error → exec .hmacReq s = .next s ∧ exec .trunc s = .next s ∧ exec .reduce s = .next s) ∧
    (legalWord w = false → busWrite 0 w s = .next (raise .illegalCommand .noUnit s))

/-- R28: a step changes the error record only by raising one error or by clearing it; it is cleared only by reset or by
the host's write of the command word of ECLR or SRST. -/
def Obligations.ErrorRecordChangesOnlyByRaiseOrClear : Prop :=
  (∀ (i : Instr) (s t : State), exec i s = .next t →
    t.err = s.err ∨ (∃ k, t.err = recordError k s.err) ∨ (i = .eclr ∨ i = .srst) ∧ t.err = ⟨none, false⟩) ∧
  ∀ s t : State, step s = .next t →
    t.err = s.err ∨ (∃ k, t.err = recordError k s.err) ∨ t.err = ⟨none, false⟩ ∧
      (s.schedule.head? = some .reset ∨
        (s.schedule.head? = some .host ∨ s.schedule = []) ∧
          (s.host.program[s.host.statement]? = some (.wr 0 0x01000000#32) ∨
            s.host.program[s.host.statement]? = some (.wr 0 0x02000000#32)))

/-- R200: no state and no input stops the block: every step answers a next state. -/
def Obligations.EveryStepAnswersANextState : Prop :=
  (∀ (i : Instr) (s : State), ∃ t, exec i s = .next t) ∧ ∀ s : State, ∃ t, step s = .next t

/-! ### Control commands -/

/-- R180: NOP leaves every state element unchanged. -/
def Obligations.NopChangesNothing : Prop :=
  decode 0x00000000#32 = .ok .nop ∧ ∀ s : State, exec .nop s = .next s

/-- R181: ECLR clears the error record and nothing else. -/
def Obligations.EclrClearsOnlyTheErrorRecord : Prop :=
  decode 0x01000000#32 = .ok .eclr ∧ ∀ s : State, exec .eclr s = .next { s with err := ⟨none, false⟩ }

/-- R182: SRST's effect and all it keeps; STATUS reads 0 after it. -/
def Obligations.SrstEmptiesAllThreeUnits : Prop :=
  decode 0x02000000#32 = .ok .srst ∧ ∀ s : State, ∃ t, exec .srst s = .next t ∧
    t = { s with
      err := ⟨none, false⟩
      enc := ⟨.opened, 0, 0, 0, []⟩
      dec := ⟨.opened, s.cfg.policy, 0, 0, []⟩
      pipe := ⟨.idle, s.pipe.reqSeq, none, [], 0, 0, 0, Vector.replicate 8 0, 0⟩ } ∧
    busRead 1 t = 0

/-! ### Encoder -/

/-- R112: ENC.INIT. -/
def Obligations.EncInitStartsAnEmptyStream : Prop :=
  decode 0x10000000#32 = .ok .encInit ∧
    ∀ s : State, exec .encInit s = .next { s with enc := ⟨.opened, 0, 0, 0, []⟩ }

/-- R113: ENC.BYTE, every case. The byte stands below the pending bits; each complete group of five bits is emitted
from the most significant end; the rest stays pending. -/
def Obligations.EncByteEmitsTheCompleteGroups : Prop :=
  ∀ (b : Byte) (s : State), decode (0x110000#24 ++ b) = .ok (.encByte b) ∧
    (s.enc.st = .error → exec (.encByte b) s = .next s) ∧
    (s.enc.st = .done → exec (.encByte b) s = .next (raise .sequence .enc s)) ∧
    (s.enc.st = .opened → s.enc.inCount.toNat = 64 → exec (.encByte b) s = .next (raise .overflow .enc s)) ∧
    (s.enc.st = .opened → s.enc.inCount.toNat ≠ 64 →
      let a := s.enc.acc.toNat * 256 + b.toNat
      let n := s.enc.nb.toNat + 8
      exec (.encByte b) s = .next { s with enc := { s.enc with
        buf := s.enc.buf ++ (List.range (n / 5)).map fun j => alpha (BitVec.ofNat 5 (a / 2 ^ (n - 5 * (j + 1))))
        acc := BitVec.ofNat 4 (a % 2 ^ (n % 5))
        nb := BitVec.ofNat 3 (n % 5)
        inCount := s.enc.inCount + 1 } })

/-- R114: ENC.FINAL, every case. -/
def Obligations.EncFinalEmitsTheLastGroup : Prop :=
  decode 0x12000000#32 = .ok .encFinal ∧ ∀ s : State,
    (s.enc.st = .error → exec .encFinal s = .next s) ∧
    (s.enc.st = .done → exec .encFinal s = .next (raise .sequence .enc s)) ∧
    (s.enc.st = .opened → exec .encFinal s = .next { s with enc := { s.enc with
      buf := s.enc.buf ++
        if s.enc.nb = 0 then [] else [alpha (BitVec.ofNat 5 (s.enc.acc.toNat * 2 ^ (5 - s.enc.nb.toNat)))]
      acc := 0
      nb := 0
      st := .done } })

/-- R111: the alphabet, in value order. -/
def Obligations.AlphabetInValueOrder : Prop :=
  ∀ v : BitVec 5, (v.toNat ≤ 25 → (alpha v).toNat = 0x41 + v.toNat) ∧
    (26 ≤ v.toNat → (alpha v).toNat = 0x32 + (v.toNat - 26))

/-- R115: from any state, the encode stream of at most ENC_CAP bytes ends DONE with the source's `encode`. -/
def Obligations.EncodeStreamGivesTheSourceEncoding : Prop :=
  ∀ (bytes : List Byte) (s : State), bytes.length ≤ 64 →
    execAll (encodeStream bytes) s =
      .next { s with enc := ⟨.done, 0, 0, BitVec.ofNat 7 bytes.length, sourceEncode bytes⟩ } ∧
    (sourceEncode bytes).length = (8 * bytes.length + 4) / 5

/-- R115, last sentence, and R205: what the encoder becomes under any sequence of commands depends only on those that
act on the encoder and on the encoder itself. -/
def Obligations.EncoderSeesOnlyItsOwnCommands : Prop :=
  ∀ (is : List Instr) (s t : State), s.enc = t.enc →
    ∃ s' t', execAll is s = .next s' ∧ execAll (is.filter actsOnEncoder) t = .next t' ∧ s'.enc = t'.enc

/-! ### Decoder -/

/-- R131: the class of every character. -/
def Obligations.CharactersAreClassifiedAsTheManualSays : Prop :=
  ∀ c : Byte,
    (0x41 ≤ c.toNat ∧ c.toNat ≤ 0x5A → classify c = .symbol (BitVec.ofNat 5 (c.toNat - 0x41))) ∧
    (0x61 ≤ c.toNat ∧ c.toNat ≤ 0x7A → classify c = .symbol (BitVec.ofNat 5 (c.toNat - 0x61))) ∧
    (0x32 ≤ c.toNat ∧ c.toNat ≤ 0x37 → classify c = .symbol (BitVec.ofNat 5 (c.toNat - 0x32 + 26))) ∧
    (c = 0x3D#8 → classify c = .pad) ∧
    (c.toNat < 0x32 ∨ 0x38 ≤ c.toNat ∧ c.toNat ≤ 0x3C ∨ 0x3E ≤ c.toNat ∧ c.toNat ≤ 0x40 ∨
        0x5B ≤ c.toNat ∧ c.toNat ≤ 0x60 ∨ 0x7B ≤ c.toNat →
      classify c = .other)

/-- R132: DEC.INIT latches CFG.POLICY. -/
def Obligations.DecInitLatchesThePolicy : Prop :=
  decode 0x20000000#32 = .ok .decInit ∧
    ∀ s : State, exec .decInit s = .next { s with dec := ⟨.opened, s.cfg.policy, 0, 0, []⟩ }

/-- R133: DEC.CHAR, every case. -/
def Obligations.DecCharTakesTheCharacter : Prop :=
  ∀ (c : Byte) (s : State), decode (0x210000#24 ++ c) = .ok (.decChar c) ∧
    (s.dec.st = .error → exec (.decChar c) s = .next s) ∧
    (s.dec.st = .done → exec (.decChar c) s = .next (raise .sequence .dec s)) ∧
    (s.dec.st = .pad → (∃ v, classify c = .symbol v) →
      exec (.decChar c) s = .next (raise .invalidCharacter .dec s)) ∧
    (∀ v, s.dec.st = .opened → classify c = .symbol v →
      let a := s.dec.acc.toNat * 32 + v.toNat
      let n := s.dec.nb.toNat + 5
      (8 ≤ n → s.dec.buf.length = 64 → exec (.decChar c) s = .next (raise .overflow .dec s)) ∧
      (8 ≤ n → s.dec.buf.length ≠ 64 → exec (.decChar c) s = .next { s with dec := { s.dec with
        buf := s.dec.buf ++ [BitVec.ofNat 8 (a / 2 ^ (n - 8))]
        acc := BitVec.ofNat 7 (a % 2 ^ (n - 8))
        nb := BitVec.ofNat 3 (n - 8) } }) ∧
      (n < 8 → exec (.decChar c) s = .next { s with dec := { s.dec with
        acc := BitVec.ofNat 7 (a % 2 ^ n)
        nb := BitVec.ofNat 3 n } })) ∧
    (s.dec.st = .opened ∨ s.dec.st = .pad → classify c = .pad →
      (s.dec.pol = .strict → exec (.decChar c) s = .next { s with dec := { s.dec with st := .pad } }) ∧
      (s.dec.pol = .strip → exec (.decChar c) s = .next s)) ∧
    (s.dec.st = .opened ∨ s.dec.st = .pad → classify c = .other →
      (s.dec.pol = .strict → exec (.decChar c) s = .next (raise .invalidCharacter .dec s)) ∧
      (s.dec.pol = .strip → exec (.decChar c) s = .next s))

/-- R134: DEC.FINAL, every case. -/
def Obligations.DecFinalDropsThePartialByte : Prop :=
  decode 0x22000000#32 = .ok .decFinal ∧ ∀ s : State,
    (s.dec.st = .error → exec .decFinal s = .next s) ∧
    (s.dec.st = .done → exec .decFinal s = .next (raise .sequence .dec s)) ∧
    (s.dec.st = .opened ∨ s.dec.st = .pad →
      exec .decFinal s = .next { s with dec := { s.dec with acc := 0, nb := 0, st := .done } })

/-- R135 (a): the decode stream under STRIP. -/
def Obligations.DecodeStreamUnderStrip : Prop :=
  ∀ (text : List Byte) (s : State), s.cfg.policy = .strip →
    let k := (symbolsOf text).length
    (5 * k / 8 ≤ 64 → execAll (decodeStream text) s =
      .next { s with dec := ⟨.done, .strip, 0, 0, sourceDecodeBytes (symbolsOf text)⟩ }) ∧
    (64 < 5 * k / 8 → execAll (decodeStream text) s = .next
      { s with err := recordError .overflow s.err, dec := ⟨.error, .strip, 0, 0, []⟩ })

/-- R135 (b) with R133 and R204: the decode stream under STRICT, for a text whose symbols fit the buffer, a text whose
first rejected character comes while they fit, and a text that STRICT accepts. A text that overflows before its first
rejected character is the model's reading (log entry 11) and is left out. -/
def Obligations.DecodeStreamUnderStrict : Prop :=
  ∀ (text : List Byte) (s : State), s.cfg.policy = .strict →
    let k := (symbolsOf text).length
    (strictRejects text → 5 * k / 8 ≤ 64 → execAll (decodeStream text) s = .next
      { s with err := recordError .invalidCharacter s.err, dec := ⟨.error, .strict, 0, 0, []⟩ }) ∧
    (∀ (before after : List Byte) (c : Byte), text = before ++ c :: after → ¬ strictRejects before →
      strictRejects (before ++ [c]) → 5 * (symbolsOf before).length / 8 ≤ 64 →
      execAll (decodeStream text) s = .next
        { s with err := recordError .invalidCharacter s.err, dec := ⟨.error, .strict, 0, 0, []⟩ }) ∧
    (¬ strictRejects text → 5 * k / 8 ≤ 64 → execAll (decodeStream text) s =
      .next { s with dec := ⟨.done, .strict, 0, 0, sourceDecodeBytes (symbolsOf text)⟩ }) ∧
    (¬ strictRejects text → 64 < 5 * k / 8 → execAll (decodeStream text) s = .next
      { s with err := recordError .overflow s.err, dec := ⟨.error, .strict, 0, 0, []⟩ })

/-- R136: decoding the encoder's output gives the bytes back, under either policy. -/
def Obligations.DecodingTheEncodingGivesTheBytesBack : Prop :=
  ∀ (bytes : List Byte) (s : State), bytes.length ≤ 64 →
    ∃ t u, execAll (encodeStream bytes) s = .next t ∧ execAll (decodeStream t.enc.buf) t = .next u ∧
      u.dec.st = .done ∧ u.dec.buf = bytes ∧ u.err = s.err

/-! ### Pipeline -/

/-- R152: the message is the counter, most significant byte first. -/
def Obligations.CounterIsSerialisedBigEndian : Prop :=
  ∀ s : State, bytesValue (be64 (counter s)).toList = s.ctrHi.toNat * 2 ^ 32 + s.ctrLo.toNat ∧
    ∀ i : Fin 8, (be64 (counter s))[i] = (counter s).extractLsb' (56 - 8 * i.val) 8

/-- R153: PIPE.INIT. -/
def Obligations.PipeInitWithdrawsAndClears : Prop :=
  decode 0x30000000#32 = .ok .pipeInit ∧ ∀ s : State, exec .pipeInit s =
    .next { s with pipe := ⟨.idle, s.pipe.reqSeq, none, [], 0, 0, 0, Vector.replicate 8 0, 0⟩ }

/-- R154: HMAC.REQ, every case. -/
def Obligations.HmacReqSnapshotsTheRequest : Prop :=
  decode 0x31000000#32 = .ok .hmacReq ∧ ∀ s : State,
    (s.pipe.st = .error → exec .hmacReq s = .next s) ∧
    (s.pipe.st = .wait → exec .hmacReq s = .next (raise .sequence .pipe s)) ∧
    (s.pipe.st ≠ .error → s.pipe.st ≠ .wait →
      (s.dec.st ≠ .done → exec .hmacReq s = .next (raise .sequence .pipe s)) ∧
      (s.dec.st = .done → s.cfg.alg = 3 → exec .hmacReq s = .next (raise .hmacKeyError .pipe s)) ∧
      (∀ alg, s.dec.st = .done → s.cfg.alg = algCode alg → exec .hmacReq s = .next { s with
        pipe := ⟨.wait, s.pipe.reqSeq + 1,
          some ⟨s.pipe.reqSeq + 1, alg, s.dec.buf, be64 (s.ctrHi ++ s.ctrLo)⟩,
          [], 0, 0, 0, Vector.replicate 8 0, 0⟩ }))

/-- R155: the generator's step, for whichever answer HMAC_GEN gives. R156 says there is no such step while no request
is pending; that a generator's move then changes nothing but the schedule is the model's form of it (log entry 5). -/
def Obligations.GeneratorAnswersThePendingRequest : Prop :=
  ∀ (s : State) (rest : List Move), s.schedule = .generator :: rest →
    (∀ r, s.pipe.st = .wait → s.pipe.req = some r →
      step s = match Config.hmacGen r.alg r.key r.msg with
        | .tag t => .next { s with
            schedule := rest
            pipe := { s.pipe with tagBuf := t.toList, req := none, st := .tagged } }
        | .keyError => .next (raise .hmacKeyError .pipe { s with schedule := rest })) ∧
    (s.pipe.st ≠ .wait ∨ s.pipe.req = none → step s = .next { s with schedule := rest })

/-- R81, R156: a response is accepted exactly if a request is pending with its sequence number; every other response
changes nothing. -/
def Obligations.OnlyTheMatchingResponseIsAccepted : Prop :=
  ∀ (s : State) (rest : List Move) (p : Response), s.schedule = .response p :: rest →
    (∀ r, s.pipe.st = .wait → s.pipe.req = some r → p.seq = r.seq → p.keyError = false → step s = .next { s with
      schedule := rest
      pipe := { s.pipe with tagBuf := p.tag.toList.take (tagLen r.alg), req := none, st := .tagged } }) ∧
    (∀ r, s.pipe.st = .wait → s.pipe.req = some r → p.seq = r.seq → p.keyError = true →
      step s = .next (raise .hmacKeyError .pipe { s with schedule := rest })) ∧
    (s.pipe.st ≠ .wait ∨ (∀ r, s.pipe.req = some r → p.seq ≠ r.seq) → step s = .next { s with schedule := rest })

/-- R157: TRUNC, every case. In state TAGGED the tag has the length of an algorithm's tag (the invariant of
StepKeepsTheInvariant). -/
def Obligations.TruncSelectsThirtyOneBits : Prop :=
  decode 0x32000000#32 = .ok .trunc ∧ ∀ s : State,
    (s.pipe.st = .error → exec .trunc s = .next s) ∧
    (s.pipe.st ≠ .error → s.pipe.st ≠ .tagged → exec .trunc s = .next (raise .sequence .pipe s)) ∧
    (∀ alg, s.pipe.st = .tagged → s.pipe.tagBuf.length = tagLen alg → exec .trunc s = .next { s with
      pipe := { s.pipe with
        offset := BitVec.ofNat 4 ((s.pipe.tagBuf.getD (tagLen alg - 1) 0).toNat % 16)
        binCode := BitVec.ofNat 31 (sourceBinCode s.pipe.tagBuf)
        st := .truncated } }) ∧
    sourceBinCode s.pipe.tagBuf < 2 ^ 31

/-- R158: REDUCE, every case. -/
def Obligations.ReduceTakesTheRemainder : Prop :=
  decode 0x33000000#32 = .ok .reduce ∧ ∀ s : State,
    (s.pipe.st = .error → exec .reduce s = .next s) ∧
    (s.pipe.st = .idle ∨ s.pipe.st = .wait ∨ s.pipe.st = .tagged →
      exec .reduce s = .next (raise .sequence .pipe s)) ∧
    (s.pipe.st = .truncated ∨ s.pipe.st = .done →
      (s.cfg.digits ∉ [6#4, 7#4, 8#4] → exec .reduce s = .next (raise .invalidDigits .pipe s)) ∧
      (s.cfg.digits ∈ [6#4, 7#4, 8#4] → ∃ text : Vector Byte 8,
        IsCode (text.toList.take s.cfg.digits.toNat) (s.pipe.binCode.toNat % 10 ^ s.cfg.digits.toNat)
          s.cfg.digits.toNat ∧
        text.toList.drop s.cfg.digits.toNat = List.replicate (8 - s.cfg.digits.toNat) 0 ∧
        exec .reduce s = .next { s with pipe := { s.pipe with
          code := BitVec.ofNat 27 (s.pipe.binCode.toNat % 10 ^ s.cfg.digits.toNat)
          codeStr := text
          codeDig := s.cfg.digits
          st := .done } }))

/-- R159: the rendering of every value below 10^d, and only it, in d digits. -/
def Obligations.DecimalRenderingIsExact : Prop :=
  ∀ (v d : Nat), d ≤ 8 → v < 10 ^ d →
    IsCode ((codeString v d).toList.take d) v d ∧ (codeString v d).toList.drop d = List.replicate (8 - d) 0 ∧
      ∀ text, IsCode text v d → text = (codeString v d).toList.take d

/-- R161: HMAC.REQ, the generator's answer, TRUNC and REDUCE give the code of the truncated tag, which depends on
nothing but the key, the counter, the algorithm, the digits and HMAC_GEN; a key error ends the derivation in ERROR. -/
def Obligations.DerivationComputesTheCode : Prop :=
  ∀ (s : State) (alg : HashAlg), s.dec.st = .done → s.cfg.alg = algCode alg → s.cfg.digits ∈ [6#4, 7#4, 8#4] →
    s.pipe.st ≠ .wait → s.pipe.st ≠ .error →
    ∃ s1, exec .hmacReq s = .next s1 ∧ s1.pipe.st = .wait ∧
      match Config.hmacGen alg s.dec.buf (be64 (s.ctrHi ++ s.ctrLo)) with
      | .tag t =>
        ∃ s2 s3 s4, agentStep .generator s1 = .next s2 ∧ exec .trunc s2 = .next s3 ∧ exec .reduce s3 = .next s4 ∧
          s4.pipe.st = .done ∧ s4.err = s.err ∧
          s4.pipe.code.toNat = sourceBinCode t.toList % 10 ^ s.cfg.digits.toNat ∧
          IsCode (s4.pipe.codeStr.toList.take s.cfg.digits.toNat)
            (sourceBinCode t.toList % 10 ^ s.cfg.digits.toNat) s.cfg.digits.toNat
      | .keyError =>
        ∃ s2, agentStep .generator s1 = .next s2 ∧ s2.pipe.st = .error ∧ s2.err = recordError .hmacKeyError s.err

/-- R40: REQ_SEQ changes only when HMAC.REQ issues a request, by one, or by reset to 0. -/
def Obligations.RequestNumberChangesOnlyOnIssue : Prop :=
  (∀ (i : Instr) (s t : State), exec i s = .next t → t.pipe.reqSeq ≠ s.pipe.reqSeq →
    i = .hmacReq ∧ t.pipe.st = .wait ∧ t.pipe.reqSeq = s.pipe.reqSeq + 1) ∧
  ∀ s t : State, step s = .next t → t.pipe.reqSeq ≠ s.pipe.reqSeq →
    t.pipe.reqSeq = s.pipe.reqSeq + 1 ∧ t.pipe.st = .wait ∨ t.pipe.reqSeq = 0 ∧ s.schedule.head? = some .reset

/-- R80: while a request stays pending, every signal of the request port stays as it is. -/
def Obligations.PendingRequestIsConstant : Prop :=
  ∀ s t : State, step s = .next t → (requestPort s).valid = true → (requestPort t).valid = true →
    requestPort t = requestPort s

/-- R80: what the request port presents. Of hreq_msg while REQ = NONE it says nothing, as R80 does (log entry 16). -/
def Obligations.RequestPortPresentsTheRequest : Prop :=
  ∀ s : State, ((requestPort s).valid = true ↔ s.pipe.st = .wait) ∧
    (s.pipe.req = none → (requestPort s).seq = 0 ∧ (requestPort s).alg = 0 ∧ (requestPort s).keyLen = 0 ∧
      ∀ i : Fin 64, (requestPort s).key[i] = 0) ∧
    ∀ r, s.pipe.req = some r → r.key.length ≤ 64 →
      (requestPort s).seq = r.seq ∧ (requestPort s).alg = algCode r.alg ∧
      (requestPort s).keyLen.toNat = r.key.length ∧ (requestPort s).msg = r.msg ∧
      (requestPort s).key.toList = r.key ++ List.replicate (64 - r.key.length) 0

/-- R240: while a request is pending, the result registers and the tag window read 0. -/
def Obligations.ResultsReadZeroWhilePending : Prop :=
  ∀ (s : State) (a : WAddr), s.Inv → s.pipe.st = .wait →
    9 ≤ a.toNat ∧ a.toNat ≤ 15 ∨ 112 ≤ a.toNat → busRead a s = 0

/-- R219: a pending derivation does not outlast the first scheduled step of the generator. The schedule, which stands
here for the fairness R219 assumes, is the model's choice (log entry 2). -/
def Obligations.WaitEndsByTheGeneratorsStep : Prop :=
  ∀ (before rest : List Move) (s : State), s.Inv → s.schedule = before ++ .generator :: rest → generatorEnabled s →
    ∃ j t, j ≤ before.length + 1 ∧ runSteps j s = .next t ∧ ¬ generatorEnabled t

/-! ### Registers and the bus -/

/-- R23, R27: no command writes CFG, CTR_LO or CTR_HI. -/
def Obligations.CommandsNeverWriteTheConfiguration : Prop :=
  ∀ (i : Instr) (s t : State), exec i s = .next t →
    t.cfg = s.cfg ∧ t.ctrLo = s.ctrLo ∧ t.ctrHi = s.ctrHi ∧ t.host = s.host ∧ t.schedule = s.schedule

/-- R67: a CFG write sets its three fields and nothing else, and CFG reads back those bits with zeros around. -/
def Obligations.CfgWriteStoresItsFields : Prop :=
  ∀ (data : Word) (s : State), ∃ t, busWrite 2 data s = .next t ∧
    t = { s with cfg := ⟨if data.getLsbD 0 then .strip else .strict, data.extractLsb' 4 2, data.extractLsb' 8 4⟩ } ∧
    busRead 2 t = data &&& 0x00000F31#32

/-- R68, R64: each counter write changes its own half, and the two registers read the two halves. -/
def Obligations.CounterWritesChangeTheirHalf : Prop :=
  ∀ (data : Word) (s : State),
    busWrite 3 data s = .next { s with ctrLo := data } ∧ busWrite 4 data s = .next { s with ctrHi := data } ∧
      busRead 3 s = s.ctrLo ∧ busRead 4 s = s.ctrHi

/-- R65, R66: writes to read-only registers, windows and reserved words have no effect; reserved words and CMD read
0. -/
def Obligations.OtherWritesHaveNoEffect : Prop :=
  ∀ (a : WAddr) (data : Word) (s : State),
    (a.toNat = 1 ∨ 5 ≤ a.toNat → busWrite a data s = .next s) ∧
    (18 ≤ a.toNat ∧ a.toNat ≤ 63 → busRead a s = 0) ∧
    busRead 0 s = 0

/-- R29: the fields of STATUS, with the codes R30, R34, R39 and R201 give their values, and its value after reset. -/
def Obligations.StatusShowsTheStates : Prop :=
  ∀ s : State,
    (busRead 1 s).extractLsb' 0 4 = encStCode s.enc.st ∧ (busRead 1 s).extractLsb' 4 4 = decStCode s.dec.st ∧
    (busRead 1 s).extractLsb' 8 4 = pipeStCode s.pipe.st ∧ (busRead 1 s).extractLsb' 12 4 = errCode s.err ∧
    (busRead 1 s).getLsbD 16 = s.err.mult ∧ (busRead 1 s).extractLsb' 17 15 = 0 ∧ busRead 1 State.reset = 0 ∧
    [EncSt.opened, .done, .error].map encStCode = [0, 1, 2] ∧
    [DecSt.opened, .pad, .done, .error].map decStCode = [0, 1, 2, 3] ∧
    [PipeSt.idle, .wait, .tagged, .truncated, .done, .error].map pipeStCode = [0, 1, 2, 3, 4, 5] ∧
    [none, some .invalidCharacter, some .hmacKeyError, some .invalidDigits, some .sequence, some .overflow,
      some .illegalCommand].map (fun k => errCode ⟨k, s.err.mult⟩) = [0, 1, 2, 3, 4, 5, 6]

/-- R70: byte i of a buffer in lane i mod 4 of word floor(i / 4) of its window, 0x00 beyond the length. -/
def Obligations.WindowsShowTheBuffers : Prop :=
  ∀ (s : State) (i : Nat),
    (i < 128 → (busRead (BitVec.ofNat 7 (64 + i / 4)) s).extractLsb' (8 * (i % 4)) 8 = s.enc.buf.getD i 0) ∧
    (i < 64 → (busRead (BitVec.ofNat 7 (96 + i / 4)) s).extractLsb' (8 * (i % 4)) 8 = s.dec.buf.getD i 0) ∧
    (i < 64 → (busRead (BitVec.ofNat 7 (112 + i / 4)) s).extractLsb' (8 * (i % 4)) 8 = s.pipe.tagBuf.getD i 0)

/-- R71, R72: the packed registers. -/
def Obligations.PackedRegistersShowTheirFields : Prop :=
  ∀ s : State,
    (busRead 6 s).toNat = s.enc.inCount.toNat * 2 ^ 16 + s.enc.nb.toNat * 2 ^ 8 + s.enc.acc.toNat ∧
    (busRead 8 s).toNat =
      (if s.dec.pol = .strip then 2 ^ 16 else 0) + s.dec.nb.toNat * 2 ^ 8 + s.dec.acc.toNat ∧
    (busRead 13 s).toNat = s.pipe.codeStr[0].toNat + s.pipe.codeStr[1].toNat * 2 ^ 8 +
      s.pipe.codeStr[2].toNat * 2 ^ 16 + s.pipe.codeStr[3].toNat * 2 ^ 24 ∧
    (busRead 14 s).toNat = s.pipe.codeStr[4].toNat + s.pipe.codeStr[5].toNat * 2 ^ 8 +
      s.pipe.codeStr[6].toNat * 2 ^ 16 + s.pipe.codeStr[7].toNat * 2 ^ 24

/-- R69, R48: the plain data registers and CAPS. The lengths are those of states with R49, which fit in 7 bits. -/
def Obligations.DataRegistersShowTheirElements : Prop :=
  ∀ s : State,
    (s.Inv → (busRead 5 s).toNat = s.enc.buf.length ∧ (busRead 7 s).toNat = s.dec.buf.length ∧
      (busRead 9 s).toNat = s.pipe.tagBuf.length) ∧
    (busRead 10 s).toNat = s.pipe.offset.toNat ∧
    (busRead 11 s).toNat = s.pipe.binCode.toNat ∧ (busRead 12 s).toNat = s.pipe.code.toNat ∧
    (busRead 15 s).toNat = s.pipe.codeDig.toNat ∧ (busRead 16 s).toNat = s.pipe.reqSeq.toNat ∧
    busRead 17 s = 0x01674040#32

/-- R62, R98: a read keeps the register's value on the host's side and changes no element of the block. That the host
moves when nothing is scheduled is the model's choice (log entry 2), and so are the list that holds its program and the
position in it (log entry 3). -/
def Obligations.ReadsChangeNoBlockState : Prop :=
  ∀ (s : State) (rest : List Move) (a : WAddr),
    (s.schedule = .host :: rest ∨ s.schedule = [] ∧ rest = []) → s.host.program[s.host.statement]? = some (.rd a) →
    step s = .next { s with
      schedule := rest
      host := { s.host with
        statement := s.host.statement + 1
        pc := s.host.pc + 1
        reads := s.host.reads ++ [busRead a s] } }

/-- R98, R22: a polling read leaves its loop exactly if the masked value differs from the one named (POLLNE) or equals it
(POLLEQ); each read is one transaction, its value is kept, and no element of the block changes. The form of the loop, one
read a step with its position kept while it goes on, is the model's choice (log entry 12); so is the host's move when
nothing is scheduled (log entry 2), and so are the program's list and the position in it (log entry 3). -/
def Obligations.PollingReadsUntilTheConditionHolds : Prop :=
  ∀ (s : State) (rest : List Move) (a : WAddr) (mask value : Word),
    (s.schedule = .host :: rest ∨ s.schedule = [] ∧ rest = []) →
    (s.host.program[s.host.statement]? = some (.pollNe a mask value) → step s = .next { s with
      schedule := rest
      host := { s.host with
        statement := if busRead a s &&& mask = value then s.host.statement else s.host.statement + 1
        pc := s.host.pc + 1
        reads := s.host.reads ++ [busRead a s] } }) ∧
    (s.host.program[s.host.statement]? = some (.pollEq a mask value) → step s = .next { s with
      schedule := rest
      host := { s.host with
        statement := if busRead a s &&& mask = value then s.host.statement + 1 else s.host.statement
        pc := s.host.pc + 1
        reads := s.host.reads ++ [busRead a s] } })

/-! ### Host programs -/

/-- R98: the assembler accepts exactly the well-formed commands, and spells the command they name. -/
def Obligations.AssemblerAcceptsTheWellFormedCommands : Prop :=
  (∀ t : CommandText, (∃ i, assembleCommand t = some i) ↔ t.wf = true) ∧
    ∀ (t : CommandText) (i : Instr), assembleCommand t = some i →
      i.mnemonic = t.mnemonic ∧ i.operand.map BitVec.toNat = t.operand

/-- R100: the disassembly of every word. The two digits of every operand, a leading zero included, and the upper-case
digits are the model's choice (log entry 15). -/
def Obligations.DisassemblyNamesTheCommand : Prop :=
  (∀ (i : Instr), i.operand = none → disassemble (encode i) = i.mnemonic) ∧
    (∀ (i : Instr) (b : Byte), i.operand = some b →
      disassemble (encode i) = i.mnemonic ++ " 0x" ++ String.ofList (hexText 2 b.toNat)) ∧
    ∀ w : Word, legalWord w = false → disassemble w = ".word 0x" ++ String.ofList (hexText 8 w.toNat)

/-- R99: the expansions of the pseudo-instructions. CFG.SET is on 32-bit numbers; that bits shifted above bit 31 are
dropped is the model's choice (log entry 17). -/
def Obligations.PseudoInstructionsSpellTheirExpansions : Prop :=
  (∀ text : List Byte,
    expand (.encStr text) = some (text.map fun b => HostOp.wr 0 (encode (.encByte b))) ∧
    expand (.encHex text) = some (text.map fun b => HostOp.wr 0 (encode (.encByte b))) ∧
    expand (.decStr text) = some (text.map fun c => HostOp.wr 0 (encode (.decChar c)))) ∧
  (∀ (v : BitVec 64) (s : State), ∃ lo hi t u, expand (.ctrSet v) = some [.wr 3 lo, .wr 4 hi] ∧
    busWrite 3 lo s = .next t ∧ busWrite 4 hi t = .next u ∧ u.ctrHi ++ u.ctrLo = v) ∧
  (∀ p a d : Word, expand (.cfgSet p a d) = some [.wr 2 ((d <<< 8) ||| (a <<< 4) ||| p)]) ∧
  expand .waitPipe = some [.pollNe 1 0x00000F00#32 0x00000100#32] ∧
  expand .hotpRun =
    some [.wr 0 0x31000000#32, .pollNe 1 0x00000F00#32 0x00000100#32, .wr 0 0x32000000#32, .wr 0 0x33000000#32]

/-! ### Frames, as the host reads them -/

/-- R110, R205: an encoder command changes no register or window but STATUS, ENC_LEN, ENC_ACC and the ENC_BUF window,
and no element of another unit. -/
def Obligations.EncoderCommandsLeaveTheOtherUnits : Prop :=
  ∀ (s t : State) (i : Instr), (i = .encInit ∨ (∃ b, i = .encByte b) ∨ i = .encFinal) → exec i s = .next t →
    t.dec = s.dec ∧ t.pipe = s.pipe ∧ t.cfg = s.cfg ∧ t.ctrLo = s.ctrLo ∧ t.ctrHi = s.ctrHi ∧
      (t.enc.st ≠ .error → t.err = s.err) ∧
      ∀ a : WAddr, a.toNat ∉ [1, 5, 6] → ¬ (64 ≤ a.toNat ∧ a.toNat ≤ 95) → busRead a t = busRead a s

/-- R130, R205: a decoder command changes no register or window but STATUS, DEC_LEN, DEC_ACC and the DEC_BUF window,
and no element of another unit. -/
def Obligations.DecoderCommandsLeaveTheOtherUnits : Prop :=
  ∀ (s t : State) (i : Instr), (i = .decInit ∨ (∃ c, i = .decChar c) ∨ i = .decFinal) → exec i s = .next t →
    t.enc = s.enc ∧ t.pipe = s.pipe ∧ t.cfg = s.cfg ∧ t.ctrLo = s.ctrLo ∧ t.ctrHi = s.ctrHi ∧
      (t.dec.st ≠ .error → t.err = s.err) ∧
      ∀ a : WAddr, a.toNat ∉ [1, 7, 8] → ¬ (96 ≤ a.toNat ∧ a.toNat ≤ 111) → busRead a t = busRead a s

/-- R38, R205: a pipeline command changes no register or window but STATUS, words 9 to 16 and the TAG_BUF window, and
no element of another unit. -/
def Obligations.PipelineCommandsLeaveTheOtherUnits : Prop :=
  ∀ (s t : State) (i : Instr), (i = .pipeInit ∨ i = .hmacReq ∨ i = .trunc ∨ i = .reduce) → exec i s = .next t →
    t.enc = s.enc ∧ t.dec = s.dec ∧ t.cfg = s.cfg ∧ t.ctrLo = s.ctrLo ∧ t.ctrHi = s.ctrHi ∧
      (t.pipe.st ≠ .error → t.err = s.err) ∧
      ∀ a : WAddr, a.toNat ≠ 1 → ¬ (9 ≤ a.toNat ∧ a.toNat ≤ 16) → ¬ 112 ≤ a.toNat → busRead a t = busRead a s

/-! ### Reset and the invariant -/

/-- R230: reset from any state: each element at its reset value, and every register reads 0 but CFG and CAPS. That the
host and the schedule stay is the model's (log entry 9). -/
def Obligations.ResetGivesTheResetValues : Prop :=
  ∀ (s : State) (rest : List Move), s.schedule = .reset :: rest → ∃ t, step s = .next t ∧
    t = {
      cfg := ⟨.strict, 0, 6⟩
      ctrLo := 0
      ctrHi := 0
      err := ⟨none, false⟩
      enc := ⟨.opened, 0, 0, 0, []⟩
      dec := ⟨.opened, .strict, 0, 0, []⟩
      pipe := ⟨.idle, 0, none, [], 0, 0, 0, Vector.replicate 8 0, 0⟩
      host := s.host
      schedule := rest } ∧
    (s.host = State.reset.host → rest = [] → t = State.reset) ∧
    ∀ a : WAddr, busRead a t =
      if a = 2 then 0x00000600#32 else if a = 17 then 0x01674040#32 else 0

/-- R49, R50: the state after reset satisfies the invariant. -/
def Obligations.ResetSatisfiesTheInvariant : Prop := State.reset.Inv

/-- R49: every step of every agent keeps the invariant, from every state that has it. -/
def Obligations.StepKeepsTheInvariant : Prop := ∀ s t : State, s.Inv → step s = .next t → t.Inv
end

