-- ==== Sys2Proof/Laws/Bits.lean ====
section
/-!
SUPPORT. The bit arithmetic of the codecs and the truncation as arithmetic on numbers, and the loop of ENC.BYTE in
closed form.
-/

namespace Sys2Proof.Machine

/-- Bits put below a number are a sum. -/
theorem shiftLeft_or_eq_add (x b n : Nat) (h : b < 2 ^ n) : (x <<< n) ||| b = x * 2 ^ n + b := by
  rw [Nat.shiftLeft_eq, Nat.mul_comm, Nat.two_pow_add_eq_or_of_lt h]

/-- A mask of n low bits is a remainder. -/
theorem and_mask_eq_mod (a n : Nat) : a &&& ((1 <<< n) - 1) = a % 2 ^ n := by
  rw [Nat.one_shiftLeft, Nat.and_two_pow_sub_one_eq_mod]

/-- The symbols the loop of ENC.BYTE emits, and the bits it leaves (40_base32_encoder.md R113). -/
theorem emitSymbols_eq (a : Nat) : ∀ (fuel n : Nat), n ≤ fuel →
    emitSymbols a fuel n =
      ((List.range (n / 5)).map (fun j => alpha (BitVec.ofNat 5 (a / 2 ^ (n - 5 * (j + 1))))), n % 5)
  | 0, n, h => by
    obtain rfl : n = 0 := by omega
    rfl
  | fuel + 1, n, h => by
    by_cases h5 : 5 ≤ n
    · have ih := emitSymbols_eq a fuel (n - 5) (by omega)
      have hdiv : n / 5 = (n - 5) / 5 + 1 := by omega
      simp only [emitSymbols, if_pos h5, ih, hdiv, List.range_succ_eq_map, List.map_cons, List.map_map]
      refine Prod.ext ?_ (by simp only; omega)
      simp only [Nat.shiftRight_eq_div_pow, List.cons.injEq]
      refine ⟨by simp, List.map_congr_left fun j _ => ?_⟩
      have hsub : n - 5 - 5 * (j + 1) = n - 5 * (j + 1 + 1) := by omega
      simp only [Function.comp_apply, Nat.succ_eq_add_one, hsub]
    · have hdiv : n / 5 = 0 := by omega
      have hmod : n % 5 = n := by omega
      simp [emitSymbols, h5, hdiv, hmod]

/-- ENC.BYTE on an encoder that takes the byte, in closed form (R113). -/
theorem appendByte_eq (b : Byte) (e : Encoder) :
    appendByte b e =
      { e with
        buf := e.buf ++ (List.range ((e.nb.toNat + 8) / 5)).map fun j =>
          alpha (BitVec.ofNat 5 ((e.acc.toNat * 256 + b.toNat) / 2 ^ (e.nb.toNat + 8 - 5 * (j + 1))))
        acc := BitVec.ofNat 4 ((e.acc.toNat * 256 + b.toNat) % 2 ^ ((e.nb.toNat + 8) % 5))
        nb := BitVec.ofNat 3 ((e.nb.toNat + 8) % 5)
        inCount := e.inCount + 1 } := by
  have ha : (e.acc.toNat <<< 8) ||| b.toNat = e.acc.toNat * 256 + b.toNat := by
    simpa using shiftLeft_or_eq_add e.acc.toNat b.toNat 8 b.isLt
  simp only [appendByte, ha, emitSymbols_eq _ _ _ (Nat.le_refl _), and_mask_eq_mod]

/-- DEC.CHAR's gathered bits as a number (41_base32_decoder.md R133). -/
theorem gatheredBits_eq (v : BitVec 5) (d : Decoder) : gatheredBits v d = d.acc.toNat * 32 + v.toNat := by
  simpa [gatheredBits] using shiftLeft_or_eq_add d.acc.toNat v.toNat 5 v.isLt

/-- A symbol that completes a byte (R133). -/
theorem appendSymbol_of_completes (v : BitVec 5) (d : Decoder) (h : 8 ≤ d.nb.toNat + 5) :
    appendSymbol v d =
      { d with
        buf := d.buf ++ [BitVec.ofNat 8 ((d.acc.toNat * 32 + v.toNat) / 2 ^ (d.nb.toNat + 5 - 8))]
        acc := BitVec.ofNat 7 ((d.acc.toNat * 32 + v.toNat) % 2 ^ (d.nb.toNat + 5 - 8))
        nb := BitVec.ofNat 3 (d.nb.toNat + 5 - 8) } := by
  simp only [appendSymbol, completesByte, decide_eq_true h, if_true, gatheredBits_eq, Nat.shiftRight_eq_div_pow,
    and_mask_eq_mod]

/-- A symbol that only adds bits (R133). -/
theorem appendSymbol_of_not_completes (v : BitVec 5) (d : Decoder) (h : d.nb.toNat + 5 < 8) :
    appendSymbol v d =
      { d with
        acc := BitVec.ofNat 7 ((d.acc.toNat * 32 + v.toNat) % 2 ^ (d.nb.toNat + 5))
        nb := BitVec.ofNat 3 (d.nb.toNat + 5) } := by
  have h' : ¬ 8 ≤ d.nb.toNat + 5 := by omega
  simp only [appendSymbol, completesByte, decide_eq_false h', gatheredBits_eq, and_mask_eq_mod]
  rfl

/-- The truncated value as a number: 7 bits of the first byte, then three bytes (42_hotp_pipeline.md R157). -/
theorem truncValue_toNat (tag : List Byte) (off : Nat) :
    (truncValue tag off).toNat =
      (tagByte tag off).toNat % 128 * 2 ^ 24 + (tagByte tag (off + 1)).toNat * 2 ^ 16 +
        (tagByte tag (off + 2)).toNat * 2 ^ 8 + (tagByte tag (off + 3)).toNat := by
  have h1 := (tagByte tag (off + 1)).isLt
  have h2 := (tagByte tag (off + 2)).isLt
  have h3 := (tagByte tag (off + 3)).isLt
  simp only [truncValue, BitVec.toNat_append, BitVec.toNat_setWidth,
    shiftLeft_or_eq_add _ _ 8 h1, shiftLeft_or_eq_add _ _ 8 h2, shiftLeft_or_eq_add _ _ 8 h3]
  omega

/-- Inside the tag, the byte read is the tag's. -/
theorem tagByte_of_lt (tag : List Byte) (i : Nat) (h : i < tag.length) : tagByte tag i = tag.getD i 0 := by
  simp [tagByte, List.getD, List.getElem?_eq_getElem h]

/-- The offset as a number (R157). -/
theorem truncOffset_toNat (tag : List Byte) :
    (truncOffset tag).toNat = (tagByte tag (tag.length - 1)).toNat % 16 := by
  simp [truncOffset]

/-- A tag of any algorithm has at least 20 bytes (R151). -/
theorem le_tagLen (alg : HashAlg) : 20 ≤ tagLen alg := by cases alg <;> decide

end Sys2Proof.Machine
end

