-- ==== Sys2Proof/Laws/Codec.lean ====
section
/-!
SUPPORT. The codecs mid-stream in closed form: what the encoder holds after some bytes and the decoder after some
symbols (40_base32_encoder.md R115, 41_base32_decoder.md R135), and that one more command keeps the form.
-/

namespace Sys2Proof.Machine

theorem bytesValue_append_singleton (l : List Byte) (b : Byte) :
    bytesValue (l ++ [b]) = 256 * bytesValue l + b.toNat := by simp [bytesValue]

theorem symbolsValue_append_singleton (l : List (BitVec 5)) (v : BitVec 5) :
    symbolsValue (l ++ [v]) = 32 * symbolsValue l + v.toNat := by simp [symbolsValue]

/-- Bits of a remainder are bits of the number. -/
theorem mod_div_mod_pow (x a b c : Nat) (h : b + c ≤ a) : x % 2 ^ a / 2 ^ b % 2 ^ c = x / 2 ^ b % 2 ^ c := by
  obtain ⟨k, rfl⟩ := Nat.exists_eq_add_of_le h
  rw [show b + c + k = b + (c + k) by omega, pow_add, Nat.mod_mul_right_div_self, pow_add, Nat.mod_mul_right_mod]

/-- The encoder after the bytes `l` of a stream, still open. -/
def encodedSoFar (l : List Byte) : Encoder where
  st := .opened
  acc := BitVec.ofNat 4 (bytesValue l % 2 ^ (8 * l.length % 5))
  nb := BitVec.ofNat 3 (8 * l.length % 5)
  inCount := BitVec.ofNat 7 l.length
  buf := (List.range (8 * l.length / 5)).map fun j =>
    alpha (BitVec.ofNat 5 (bytesValue l / 2 ^ (8 * l.length - 5 * (j + 1))))

theorem encodedSoFar_nb (l : List Byte) : (encodedSoFar l).nb.toNat = 8 * l.length % 5 := by
  simp [encodedSoFar]
  omega

theorem encodedSoFar_acc (l : List Byte) :
    (encodedSoFar l).acc.toNat = bytesValue l % 2 ^ (8 * l.length % 5) := by
  have h1 : bytesValue l % 2 ^ (8 * l.length % 5) < 2 ^ (8 * l.length % 5) := Nat.mod_lt _ (by positivity)
  have h2 : 2 ^ (8 * l.length % 5) ≤ 2 ^ 4 := Nat.pow_le_pow_right (by decide) (by omega)
  simp only [encodedSoFar, BitVec.toNat_ofNat]
  exact Nat.mod_eq_of_lt (by omega)

/-- One more byte (R113). -/
theorem appendByte_encodedSoFar (l : List Byte) (b : Byte) :
    appendByte b (encodedSoFar l) = encodedSoFar (l ++ [b]) := by
  have hb := b.isLt
  have hx : (256 * bytesValue l + b.toNat) / 2 ^ 8 = bytesValue l := by omega
  have ha : bytesValue l % 2 ^ (8 * l.length % 5) * 256 + b.toNat =
      (256 * bytesValue l + b.toNat) % 2 ^ (8 * l.length % 5 + 8) := by
    rw [pow_add, Nat.mul_comm (2 ^ (8 * l.length % 5)), Nat.mod_mul, hx]
    omega
  have hm : (8 * l.length % 5 + 8) % 5 = 8 * (l.length + 1) % 5 := by omega
  rw [appendByte_eq, encodedSoFar_nb, encodedSoFar_acc, ha]
  simp only [encodedSoFar, List.length_append, List.length_singleton, bytesValue_append_singleton, hm]
  congr 1
  · rw [← hm, Nat.mod_mod_of_dvd _ (pow_dvd_pow 2 (by omega))]
  · apply BitVec.eq_of_toNat_eq
    simp
  · have hsplit : 8 * (l.length + 1) / 5 = 8 * l.length / 5 + (8 * l.length % 5 + 8) / 5 := by omega
    rw [hsplit, List.range_add, List.map_append, List.map_map]
    congr 1
    · apply List.map_congr_left
      intro j hj
      simp at hj
      have hpos : 8 * (l.length + 1) - 5 * (j + 1) = 8 + (8 * l.length - 5 * (j + 1)) := by omega
      rw [hpos, pow_add, ← Nat.div_div_eq_div_mul, hx]
    · apply List.map_congr_left
      intro j hj
      simp at hj
      simp only [Function.comp_apply]
      congr 1
      apply BitVec.eq_of_toNat_eq
      have hbits := mod_div_mod_pow (256 * bytesValue l + b.toNat) (8 * l.length % 5 + 8)
        (8 * l.length % 5 + 8 - 5 * (j + 1)) 5 (by omega)
      simp only [BitVec.toNat_ofNat]
      rw [hbits]
      congr 3
      omega

/-- The decoder after the symbols `l` of a stream, OPEN or PAD. -/
def decodedSoFar (st : DecSt) (pol : Policy) (l : List (BitVec 5)) : Decoder where
  st := st
  pol := pol
  acc := BitVec.ofNat 7 (symbolsValue l % 2 ^ (5 * l.length % 8))
  nb := BitVec.ofNat 3 (5 * l.length % 8)
  buf := (List.range (5 * l.length / 8)).map fun i =>
    BitVec.ofNat 8 (symbolsValue l / 2 ^ (5 * l.length - 8 * (i + 1)))

theorem decodedSoFar_nb (st : DecSt) (pol : Policy) (l : List (BitVec 5)) :
    (decodedSoFar st pol l).nb.toNat = 5 * l.length % 8 := by
  simp [decodedSoFar]

theorem decodedSoFar_acc (st : DecSt) (pol : Policy) (l : List (BitVec 5)) :
    (decodedSoFar st pol l).acc.toNat = symbolsValue l % 2 ^ (5 * l.length % 8) := by
  have h1 : symbolsValue l % 2 ^ (5 * l.length % 8) < 2 ^ (5 * l.length % 8) := Nat.mod_lt _ (by positivity)
  have h2 : 2 ^ (5 * l.length % 8) ≤ 2 ^ 7 := Nat.pow_le_pow_right (by decide) (by omega)
  simp only [decodedSoFar, BitVec.toNat_ofNat]
  exact Nat.mod_eq_of_lt (by omega)

theorem decodedSoFar_length (st : DecSt) (pol : Policy) (l : List (BitVec 5)) :
    (decodedSoFar st pol l).buf.length = 5 * l.length / 8 := by simp [decodedSoFar]

/-- One more symbol (R133). -/
theorem appendSymbol_decodedSoFar (st : DecSt) (pol : Policy) (l : List (BitVec 5)) (v : BitVec 5) :
    appendSymbol v (decodedSoFar st pol l) = decodedSoFar st pol (l ++ [v]) := by
  have hv := v.isLt
  have hx : (32 * symbolsValue l + v.toNat) / 2 ^ 5 = symbolsValue l := by omega
  have ha : symbolsValue l % 2 ^ (5 * l.length % 8) * 32 + v.toNat =
      (32 * symbolsValue l + v.toNat) % 2 ^ (5 * l.length % 8 + 5) := by
    rw [pow_add, Nat.mul_comm (2 ^ (5 * l.length % 8)), Nat.mod_mul, hx]
    omega
  have hearlier : ∀ j ∈ List.range (5 * l.length / 8),
      BitVec.ofNat 8 (symbolsValue l / 2 ^ (5 * l.length - 8 * (j + 1))) =
        BitVec.ofNat 8 ((32 * symbolsValue l + v.toNat) / 2 ^ (5 * (l.length + 1) - 8 * (j + 1))) := by
    intro j hj
    simp at hj
    have hpos : 5 * (l.length + 1) - 8 * (j + 1) = 5 + (5 * l.length - 8 * (j + 1)) := by omega
    rw [hpos, pow_add, ← Nat.div_div_eq_div_mul, hx]
  by_cases h8 : 8 ≤ 5 * l.length % 8 + 5
  · have hm : 5 * l.length % 8 + 5 - 8 = 5 * (l.length + 1) % 8 := by omega
    have hsplit : 5 * (l.length + 1) / 8 = 5 * l.length / 8 + 1 := by omega
    rw [appendSymbol_of_completes _ _ (by rw [decodedSoFar_nb]; exact h8), decodedSoFar_nb, decodedSoFar_acc, ha]
    simp only [decodedSoFar, List.length_append, List.length_singleton, symbolsValue_append_singleton, hm]
    congr 1
    · rw [Nat.mod_mod_of_dvd _ (pow_dvd_pow 2 (by omega))]
    · rw [hsplit, List.range_succ, List.map_append, List.map_singleton, List.map_congr_left hearlier]
      congr 2
      apply BitVec.eq_of_toNat_eq
      have hbits := mod_div_mod_pow (32 * symbolsValue l + v.toNat) (5 * l.length % 8 + 5)
        (5 * (l.length + 1) % 8) 8 (by omega)
      simp only [BitVec.toNat_ofNat]
      rw [hbits]
      congr 3
      omega
  · have hm : 5 * l.length % 8 + 5 = 5 * (l.length + 1) % 8 := by omega
    have hsplit : 5 * (l.length + 1) / 8 = 5 * l.length / 8 := by omega
    rw [appendSymbol_of_not_completes _ _ (by rw [decodedSoFar_nb]; omega), decodedSoFar_nb, decodedSoFar_acc, ha]
    simp only [decodedSoFar, List.length_append, List.length_singleton, symbolsValue_append_singleton, hm, Nat.mod_mod]
    congr 1
    rw [hsplit, List.map_congr_left hearlier]

/-- The symbols of the alphabet decode to their values (41_base32_decoder.md R131). -/
theorem classify_alpha (v : BitVec 5) : classify (alpha v) = .symbol v := by
  revert v
  decide

end Sys2Proof.Machine
end

