-- ==== Sys2Proof/Laws/Decode.lean ====
section
/-!
SUPPORT. The fields of a command word, taken apart and put together (30_encoding.md R91), and what OP names (R93).
-/

namespace Sys2Proof

open Machine

/-- A word is its three fields. -/
theorem append_fields (w : Word) : opField w ++ rsvField w ++ immField w = w := by
  apply BitVec.eq_of_toNat_eq
  have := w.isLt
  simp only [opField, rsvField, immField, BitVec.toNat_append, BitVec.extractLsb'_toNat]
  rw [shiftLeft_or_eq_add _ _ 16 (by omega), shiftLeft_or_eq_add _ _ 8 (by omega)]
  simp only [Nat.shiftRight_eq_div_pow]
  omega

/-- The fields of a word put together from fields. -/
theorem fields_append (op imm : Byte) (rsv : BitVec 16) :
    opField (op ++ rsv ++ imm) = op ∧ rsvField (op ++ rsv ++ imm) = rsv ∧ immField (op ++ rsv ++ imm) = imm := by
  have h1 := op.isLt
  have h2 := imm.isLt
  have h3 := rsv.isLt
  refine ⟨?_, ?_, ?_⟩ <;> apply BitVec.eq_of_toNat_eq <;>
    simp only [opField, rsvField, immField, BitVec.toNat_append, BitVec.extractLsb'_toNat,
      shiftLeft_or_eq_add _ _ 16 h3, shiftLeft_or_eq_add _ _ 8 h2, Nat.shiftRight_eq_div_pow] <;>
    omega

/-- OP and the operand byte name a command exactly if it has that opcode and, where it has an operand, that byte. -/
theorem instrOfOp_eq_some_iff (op imm : Byte) (i : Instr) :
    instrOfOp op imm = some i ↔ i.opcode = op ∧ ∀ b, i.operand = some b → b = imm := by
  constructor
  · intro h
    unfold instrOfOp at h
    split at h <;> simp at h <;> subst h <;> simp [Instr.opcode, Instr.operand]
  · rintro ⟨rfl, h⟩
    cases i <;> simp [Instr.opcode, instrOfOp, Instr.operand] at h ⊢ <;> exact h.symm

/-- Every command is well formed. -/
theorem Instr.wf_eq_true (i : Instr) : i.wf = true := by
  cases i <;> simp [Instr.wf]
  all_goals
    rename_i b
    have := b.isLt
    omega

end Sys2Proof
end

