-- ==== Sys2Proof/Laws/State.lean ====
section
/-!
SUPPORT. Each field of the state after each shared update, true by definition: simp takes an update apart with these
and no proof unfolds a record update.
-/

namespace Sys2Proof.Machine

variable (s : State)

@[simp] theorem initEncoder_cfg : (initEncoder s).cfg = s.cfg := rfl
@[simp] theorem initEncoder_ctrLo : (initEncoder s).ctrLo = s.ctrLo := rfl
@[simp] theorem initEncoder_ctrHi : (initEncoder s).ctrHi = s.ctrHi := rfl
@[simp] theorem initEncoder_err : (initEncoder s).err = s.err := rfl
@[simp] theorem initEncoder_enc : (initEncoder s).enc = emptyEncoder := rfl
@[simp] theorem initEncoder_dec : (initEncoder s).dec = s.dec := rfl
@[simp] theorem initEncoder_pipe : (initEncoder s).pipe = s.pipe := rfl
@[simp] theorem initEncoder_host : (initEncoder s).host = s.host := rfl
@[simp] theorem initEncoder_schedule : (initEncoder s).schedule = s.schedule := rfl

@[simp] theorem initDecoder_cfg : (initDecoder s).cfg = s.cfg := rfl
@[simp] theorem initDecoder_ctrLo : (initDecoder s).ctrLo = s.ctrLo := rfl
@[simp] theorem initDecoder_ctrHi : (initDecoder s).ctrHi = s.ctrHi := rfl
@[simp] theorem initDecoder_err : (initDecoder s).err = s.err := rfl
@[simp] theorem initDecoder_enc : (initDecoder s).enc = s.enc := rfl
@[simp] theorem initDecoder_dec : (initDecoder s).dec = emptyDecoder s.cfg.policy := rfl
@[simp] theorem initDecoder_pipe : (initDecoder s).pipe = s.pipe := rfl
@[simp] theorem initDecoder_host : (initDecoder s).host = s.host := rfl
@[simp] theorem initDecoder_schedule : (initDecoder s).schedule = s.schedule := rfl

@[simp] theorem initPipeline_cfg : (initPipeline s).cfg = s.cfg := rfl
@[simp] theorem initPipeline_ctrLo : (initPipeline s).ctrLo = s.ctrLo := rfl
@[simp] theorem initPipeline_ctrHi : (initPipeline s).ctrHi = s.ctrHi := rfl
@[simp] theorem initPipeline_err : (initPipeline s).err = s.err := rfl
@[simp] theorem initPipeline_enc : (initPipeline s).enc = s.enc := rfl
@[simp] theorem initPipeline_dec : (initPipeline s).dec = s.dec := rfl
@[simp] theorem initPipeline_pipe : (initPipeline s).pipe = emptyPipeline s.pipe.reqSeq := rfl
@[simp] theorem initPipeline_host : (initPipeline s).host = s.host := rfl
@[simp] theorem initPipeline_schedule : (initPipeline s).schedule = s.schedule := rfl

@[simp] theorem clearErrors_cfg : (clearErrors s).cfg = s.cfg := rfl
@[simp] theorem clearErrors_ctrLo : (clearErrors s).ctrLo = s.ctrLo := rfl
@[simp] theorem clearErrors_ctrHi : (clearErrors s).ctrHi = s.ctrHi := rfl
@[simp] theorem clearErrors_err : (clearErrors s).err = noError := rfl
@[simp] theorem clearErrors_enc : (clearErrors s).enc = s.enc := rfl
@[simp] theorem clearErrors_dec : (clearErrors s).dec = s.dec := rfl
@[simp] theorem clearErrors_pipe : (clearErrors s).pipe = s.pipe := rfl
@[simp] theorem clearErrors_host : (clearErrors s).host = s.host := rfl
@[simp] theorem clearErrors_schedule : (clearErrors s).schedule = s.schedule := rfl

@[simp] theorem softReset_cfg : (softReset s).cfg = s.cfg := rfl
@[simp] theorem softReset_ctrLo : (softReset s).ctrLo = s.ctrLo := rfl
@[simp] theorem softReset_ctrHi : (softReset s).ctrHi = s.ctrHi := rfl
@[simp] theorem softReset_err : (softReset s).err = noError := rfl
@[simp] theorem softReset_enc : (softReset s).enc = emptyEncoder := rfl
@[simp] theorem softReset_dec : (softReset s).dec = emptyDecoder s.cfg.policy := rfl
@[simp] theorem softReset_pipe : (softReset s).pipe = emptyPipeline s.pipe.reqSeq := rfl
@[simp] theorem softReset_host : (softReset s).host = s.host := rfl
@[simp] theorem softReset_schedule : (softReset s).schedule = s.schedule := rfl

@[simp] theorem resetBlock_cfg : (resetBlock s).cfg = ⟨.strict, 0, 6⟩ := rfl
@[simp] theorem resetBlock_ctrLo : (resetBlock s).ctrLo = 0 := rfl
@[simp] theorem resetBlock_ctrHi : (resetBlock s).ctrHi = 0 := rfl
@[simp] theorem resetBlock_err : (resetBlock s).err = noError := rfl
@[simp] theorem resetBlock_enc : (resetBlock s).enc = emptyEncoder := rfl
@[simp] theorem resetBlock_dec : (resetBlock s).dec = emptyDecoder .strict := rfl
@[simp] theorem resetBlock_pipe : (resetBlock s).pipe = emptyPipeline 0 := rfl
@[simp] theorem resetBlock_host : (resetBlock s).host = s.host := rfl
@[simp] theorem resetBlock_schedule : (resetBlock s).schedule = s.schedule := rfl

@[simp] theorem finishDecode_cfg : (finishDecode s).cfg = s.cfg := rfl
@[simp] theorem finishDecode_ctrLo : (finishDecode s).ctrLo = s.ctrLo := rfl
@[simp] theorem finishDecode_ctrHi : (finishDecode s).ctrHi = s.ctrHi := rfl
@[simp] theorem finishDecode_err : (finishDecode s).err = s.err := rfl
@[simp] theorem finishDecode_enc : (finishDecode s).enc = s.enc := rfl
@[simp] theorem finishDecode_dec : (finishDecode s).dec = { s.dec with acc := 0, nb := 0, st := .done } := rfl
@[simp] theorem finishDecode_pipe : (finishDecode s).pipe = s.pipe := rfl
@[simp] theorem finishDecode_host : (finishDecode s).host = s.host := rfl
@[simp] theorem finishDecode_schedule : (finishDecode s).schedule = s.schedule := rfl

@[simp] theorem countTransaction_cfg : (countTransaction s).cfg = s.cfg := rfl
@[simp] theorem countTransaction_ctrLo : (countTransaction s).ctrLo = s.ctrLo := rfl
@[simp] theorem countTransaction_ctrHi : (countTransaction s).ctrHi = s.ctrHi := rfl
@[simp] theorem countTransaction_err : (countTransaction s).err = s.err := rfl
@[simp] theorem countTransaction_enc : (countTransaction s).enc = s.enc := rfl
@[simp] theorem countTransaction_dec : (countTransaction s).dec = s.dec := rfl
@[simp] theorem countTransaction_pipe : (countTransaction s).pipe = s.pipe := rfl
@[simp] theorem countTransaction_schedule : (countTransaction s).schedule = s.schedule := rfl
@[simp] theorem countTransaction_host : (countTransaction s).host = { s.host with pc := s.host.pc + 1 } := rfl

@[simp] theorem advanceHost_cfg : (advanceHost s).cfg = s.cfg := rfl
@[simp] theorem advanceHost_ctrLo : (advanceHost s).ctrLo = s.ctrLo := rfl
@[simp] theorem advanceHost_ctrHi : (advanceHost s).ctrHi = s.ctrHi := rfl
@[simp] theorem advanceHost_err : (advanceHost s).err = s.err := rfl
@[simp] theorem advanceHost_enc : (advanceHost s).enc = s.enc := rfl
@[simp] theorem advanceHost_dec : (advanceHost s).dec = s.dec := rfl
@[simp] theorem advanceHost_pipe : (advanceHost s).pipe = s.pipe := rfl
@[simp] theorem advanceHost_host : (advanceHost s).host =
    { s.host with statement := s.host.statement + 1, pc := s.host.pc + 1 } := rfl
@[simp] theorem advanceHost_schedule : (advanceHost s).schedule = s.schedule := rfl

@[simp] theorem keepRead_cfg (v : Word) : (keepRead v s).cfg = s.cfg := rfl
@[simp] theorem keepRead_ctrLo (v : Word) : (keepRead v s).ctrLo = s.ctrLo := rfl
@[simp] theorem keepRead_ctrHi (v : Word) : (keepRead v s).ctrHi = s.ctrHi := rfl
@[simp] theorem keepRead_err (v : Word) : (keepRead v s).err = s.err := rfl
@[simp] theorem keepRead_enc (v : Word) : (keepRead v s).enc = s.enc := rfl
@[simp] theorem keepRead_dec (v : Word) : (keepRead v s).dec = s.dec := rfl
@[simp] theorem keepRead_pipe (v : Word) : (keepRead v s).pipe = s.pipe := rfl
@[simp] theorem keepRead_host (v : Word) : (keepRead v s).host = { s.host with reads := s.host.reads ++ [v] } := rfl
@[simp] theorem keepRead_schedule (v : Word) : (keepRead v s).schedule = s.schedule := rfl

/-- All a polling read can do: it keeps the value read and counts one transaction, and goes on or stays. -/
theorem pollRead_eq (a : WAddr) (leaves : Word → Bool) : pollRead a leaves s =
    { s with host := { s.host with
      statement := if leaves (busRead a s) then s.host.statement + 1 else s.host.statement
      pc := s.host.pc + 1
      reads := s.host.reads ++ [busRead a s] } } := by
  unfold pollRead
  split <;> rfl

@[simp] theorem pollRead_cfg (a : WAddr) (leaves : Word → Bool) : (pollRead a leaves s).cfg = s.cfg := by
  rw [pollRead_eq]
@[simp] theorem pollRead_ctrLo (a : WAddr) (leaves : Word → Bool) : (pollRead a leaves s).ctrLo = s.ctrLo := by
  rw [pollRead_eq]
@[simp] theorem pollRead_ctrHi (a : WAddr) (leaves : Word → Bool) : (pollRead a leaves s).ctrHi = s.ctrHi := by
  rw [pollRead_eq]
@[simp] theorem pollRead_err (a : WAddr) (leaves : Word → Bool) : (pollRead a leaves s).err = s.err := by
  rw [pollRead_eq]
@[simp] theorem pollRead_enc (a : WAddr) (leaves : Word → Bool) : (pollRead a leaves s).enc = s.enc := by
  rw [pollRead_eq]
@[simp] theorem pollRead_dec (a : WAddr) (leaves : Word → Bool) : (pollRead a leaves s).dec = s.dec := by
  rw [pollRead_eq]
@[simp] theorem pollRead_pipe (a : WAddr) (leaves : Word → Bool) : (pollRead a leaves s).pipe = s.pipe := by
  rw [pollRead_eq]
@[simp] theorem pollRead_schedule (a : WAddr) (leaves : Word → Bool) : (pollRead a leaves s).schedule = s.schedule := by
  rw [pollRead_eq]

@[simp] theorem acceptTag_cfg (t : List Byte) : (acceptTag t s).cfg = s.cfg := rfl
@[simp] theorem acceptTag_ctrLo (t : List Byte) : (acceptTag t s).ctrLo = s.ctrLo := rfl
@[simp] theorem acceptTag_ctrHi (t : List Byte) : (acceptTag t s).ctrHi = s.ctrHi := rfl
@[simp] theorem acceptTag_err (t : List Byte) : (acceptTag t s).err = s.err := rfl
@[simp] theorem acceptTag_enc (t : List Byte) : (acceptTag t s).enc = s.enc := rfl
@[simp] theorem acceptTag_dec (t : List Byte) : (acceptTag t s).dec = s.dec := rfl
@[simp] theorem acceptTag_pipe (t : List Byte) : (acceptTag t s).pipe = { s.pipe with tagBuf := t, req := none, st := .tagged } := rfl
@[simp] theorem acceptTag_host (t : List Byte) : (acceptTag t s).host = s.host := rfl
@[simp] theorem acceptTag_schedule (t : List Byte) : (acceptTag t s).schedule = s.schedule := rfl

@[simp] theorem issueRequest_cfg (alg : HashAlg) : (issueRequest alg s).cfg = s.cfg := rfl
@[simp] theorem issueRequest_ctrLo (alg : HashAlg) : (issueRequest alg s).ctrLo = s.ctrLo := rfl
@[simp] theorem issueRequest_ctrHi (alg : HashAlg) : (issueRequest alg s).ctrHi = s.ctrHi := rfl
@[simp] theorem issueRequest_err (alg : HashAlg) : (issueRequest alg s).err = s.err := rfl
@[simp] theorem issueRequest_enc (alg : HashAlg) : (issueRequest alg s).enc = s.enc := rfl
@[simp] theorem issueRequest_dec (alg : HashAlg) : (issueRequest alg s).dec = s.dec := rfl
@[simp] theorem issueRequest_pipe (alg : HashAlg) : (issueRequest alg s).pipe = { emptyPipeline (s.pipe.reqSeq + 1) with
      st := .wait, req := some ⟨s.pipe.reqSeq + 1, alg, s.dec.buf, be64 (counter s)⟩ } := rfl
@[simp] theorem issueRequest_host (alg : HashAlg) : (issueRequest alg s).host = s.host := rfl
@[simp] theorem issueRequest_schedule (alg : HashAlg) : (issueRequest alg s).schedule = s.schedule := rfl

@[simp] theorem truncateTag_cfg : (truncateTag s).cfg = s.cfg := rfl
@[simp] theorem truncateTag_ctrLo : (truncateTag s).ctrLo = s.ctrLo := rfl
@[simp] theorem truncateTag_ctrHi : (truncateTag s).ctrHi = s.ctrHi := rfl
@[simp] theorem truncateTag_err : (truncateTag s).err = s.err := rfl
@[simp] theorem truncateTag_enc : (truncateTag s).enc = s.enc := rfl
@[simp] theorem truncateTag_dec : (truncateTag s).dec = s.dec := rfl
@[simp] theorem truncateTag_pipe : (truncateTag s).pipe = { s.pipe with
      offset := truncOffset s.pipe.tagBuf
      binCode := truncValue s.pipe.tagBuf (truncOffset s.pipe.tagBuf).toNat
      st := .truncated } := rfl
@[simp] theorem truncateTag_host : (truncateTag s).host = s.host := rfl
@[simp] theorem truncateTag_schedule : (truncateTag s).schedule = s.schedule := rfl

@[simp] theorem raise_enc_cfg (k : ErrKind) : (raise k .enc s).cfg = s.cfg := rfl
@[simp] theorem raise_enc_ctrLo (k : ErrKind) : (raise k .enc s).ctrLo = s.ctrLo := rfl
@[simp] theorem raise_enc_ctrHi (k : ErrKind) : (raise k .enc s).ctrHi = s.ctrHi := rfl
@[simp] theorem raise_enc_err (k : ErrKind) : (raise k .enc s).err = recordError k s.err := rfl
@[simp] theorem raise_enc_enc (k : ErrKind) : (raise k .enc s).enc = { emptyEncoder with st := .error } := rfl
@[simp] theorem raise_enc_dec (k : ErrKind) : (raise k .enc s).dec = s.dec := rfl
@[simp] theorem raise_enc_pipe (k : ErrKind) : (raise k .enc s).pipe = s.pipe := rfl
@[simp] theorem raise_enc_host (k : ErrKind) : (raise k .enc s).host = s.host := rfl
@[simp] theorem raise_enc_schedule (k : ErrKind) : (raise k .enc s).schedule = s.schedule := rfl

@[simp] theorem raise_dec_cfg (k : ErrKind) : (raise k .dec s).cfg = s.cfg := rfl
@[simp] theorem raise_dec_ctrLo (k : ErrKind) : (raise k .dec s).ctrLo = s.ctrLo := rfl
@[simp] theorem raise_dec_ctrHi (k : ErrKind) : (raise k .dec s).ctrHi = s.ctrHi := rfl
@[simp] theorem raise_dec_err (k : ErrKind) : (raise k .dec s).err = recordError k s.err := rfl
@[simp] theorem raise_dec_enc (k : ErrKind) : (raise k .dec s).enc = s.enc := rfl
@[simp] theorem raise_dec_dec (k : ErrKind) : (raise k .dec s).dec = { emptyDecoder s.dec.pol with st := .error } := rfl
@[simp] theorem raise_dec_pipe (k : ErrKind) : (raise k .dec s).pipe = s.pipe := rfl
@[simp] theorem raise_dec_host (k : ErrKind) : (raise k .dec s).host = s.host := rfl
@[simp] theorem raise_dec_schedule (k : ErrKind) : (raise k .dec s).schedule = s.schedule := rfl

@[simp] theorem raise_pipe_cfg (k : ErrKind) : (raise k .pipe s).cfg = s.cfg := rfl
@[simp] theorem raise_pipe_ctrLo (k : ErrKind) : (raise k .pipe s).ctrLo = s.ctrLo := rfl
@[simp] theorem raise_pipe_ctrHi (k : ErrKind) : (raise k .pipe s).ctrHi = s.ctrHi := rfl
@[simp] theorem raise_pipe_err (k : ErrKind) : (raise k .pipe s).err = recordError k s.err := rfl
@[simp] theorem raise_pipe_enc (k : ErrKind) : (raise k .pipe s).enc = s.enc := rfl
@[simp] theorem raise_pipe_dec (k : ErrKind) : (raise k .pipe s).dec = s.dec := rfl
@[simp] theorem raise_pipe_pipe (k : ErrKind) : (raise k .pipe s).pipe = { emptyPipeline s.pipe.reqSeq with st := .error } := rfl
@[simp] theorem raise_pipe_host (k : ErrKind) : (raise k .pipe s).host = s.host := rfl
@[simp] theorem raise_pipe_schedule (k : ErrKind) : (raise k .pipe s).schedule = s.schedule := rfl

@[simp] theorem raise_noUnit_cfg (k : ErrKind) : (raise k .noUnit s).cfg = s.cfg := rfl
@[simp] theorem raise_noUnit_ctrLo (k : ErrKind) : (raise k .noUnit s).ctrLo = s.ctrLo := rfl
@[simp] theorem raise_noUnit_ctrHi (k : ErrKind) : (raise k .noUnit s).ctrHi = s.ctrHi := rfl
@[simp] theorem raise_noUnit_err (k : ErrKind) : (raise k .noUnit s).err = recordError k s.err := rfl
@[simp] theorem raise_noUnit_enc (k : ErrKind) : (raise k .noUnit s).enc = s.enc := rfl
@[simp] theorem raise_noUnit_dec (k : ErrKind) : (raise k .noUnit s).dec = s.dec := rfl
@[simp] theorem raise_noUnit_pipe (k : ErrKind) : (raise k .noUnit s).pipe = s.pipe := rfl
@[simp] theorem raise_noUnit_host (k : ErrKind) : (raise k .noUnit s).host = s.host := rfl
@[simp] theorem raise_noUnit_schedule (k : ErrKind) : (raise k .noUnit s).schedule = s.schedule := rfl

end Sys2Proof.Machine
end

