-- ==== Sys2Proof/Laws/Invariants.lean ====
section
/-!
SUPPORT. Each shared operation keeps the invariant of its unit (10_state.md R49).
-/

namespace Sys2Proof.Machine

/-- An encoder at its INIT values, OPEN or ERROR. -/
theorem emptyEncoder_inv (cap : Nat) (st : EncSt) (h : st = .opened ∨ st = .error) :
    EncoderInv cap { emptyEncoder with st := st } := by
  constructor <;> rcases h with rfl | rfl <;> simp [emptyEncoder]

/-- A decoder at its INIT values, OPEN or ERROR. -/
theorem emptyDecoder_inv (cap : Nat) (pol : Policy) (st : DecSt) (h : st = .opened ∨ st = .error) :
    DecoderInv cap { emptyDecoder pol with st := st } := by
  constructor <;> rcases h with rfl | rfl <;> simp [emptyDecoder]
  exact ⟨0, rfl, rfl⟩

/-- A pipeline at its INIT values, IDLE or ERROR. -/
theorem emptyPipeline_inv (cap : Nat) (seq : BitVec 8) (st : PipeSt) (h : st = .idle ∨ st = .error) :
    PipelineInv cap { emptyPipeline seq with st := st } := by
  constructor <;> rcases h with rfl | rfl <;> simp [emptyPipeline, holdsTag, holdsValue]

/-- Recording an error leaves ERRCODE non-zero (R28). -/
theorem recordError_inv (k : ErrKind) (e : ErrRec) : (recordError k e).Inv := by
  unfold recordError ErrRec.Inv
  split <;> simp_all

/-- `raise` keeps the invariant, against every unit (60_exceptions.md R202, R203). -/
theorem raise_inv (k : ErrKind) (u : UnitId) (s : State) (h : s.Inv) : (raise k u s).Inv := by
  obtain ⟨-, he, hd, hp⟩ := h
  cases u with
  | enc => exact ⟨recordError_inv _ _, emptyEncoder_inv _ _ (.inr rfl), hd, hp⟩
  | dec => exact ⟨recordError_inv _ _, he, emptyDecoder_inv _ _ _ (.inr rfl), hp⟩
  | pipe => exact ⟨recordError_inv _ _, he, hd, emptyPipeline_inv _ _ _ (.inr rfl)⟩
  | noUnit => exact ⟨recordError_inv _ _, he, hd, hp⟩

/-- A number narrowed after a remainder stays below the remainder's bound. -/
theorem toNat_ofNat_mod_lt (w a n : Nat) : (BitVec.ofNat w (a % 2 ^ n)).toNat < 2 ^ n :=
  Nat.lt_of_le_of_lt (BitVec.toNat_ofNat _ _ ▸ Nat.mod_le _ _) (Nat.mod_lt _ (by positivity))

/-- ENC.BYTE on an encoder that takes the byte (40_base32_encoder.md R113). -/
theorem appendByte_inv (cap : Nat) (hcap : cap ≤ 64) (b : Byte) (e : Encoder) (h : EncoderInv cap e)
    (ho : e.st = .opened) (hn : e.inCount.toNat ≠ cap) : EncoderInv cap (appendByte b e) := by
  obtain ⟨-, -, hle, hsym, hopen, -, -⟩ := h
  obtain ⟨hnb, hlen⟩ := hopen ho
  rw [appendByte_eq]
  have hin : (e.inCount + 1).toNat = e.inCount.toNat + 1 := by simp; omega
  have hnb' : (BitVec.ofNat 3 ((e.nb.toNat + 8) % 5)).toNat = (e.nb.toNat + 8) % 5 := by simp; omega
  constructor <;> simp only [hin, hnb']
  · omega
  · exact toNat_ofNat_mod_lt _ _ _
  · omega
  · intro c hc
    simp only [List.mem_append, List.mem_map] at hc
    rcases hc with hc | ⟨j, -, rfl⟩
    · exact hsym c hc
    · exact ⟨_, rfl⟩
  · intro _
    simp only [List.length_append, List.length_map, List.length_range]
    omega
  · simp [ho]
  · simp [ho]

/-- ENC.FINAL on an open encoder (40_base32_encoder.md R114). -/
theorem finishEncode_inv (cap : Nat) (e : Encoder) (h : EncoderInv cap e) (ho : e.st = .opened) :
    EncoderInv cap { e with buf := e.buf ++ finalSymbols e, acc := 0, nb := 0, st := .done } := by
  obtain ⟨-, -, hle, hsym, hopen, -, -⟩ := h
  obtain ⟨hnb, hlen⟩ := hopen ho
  constructor <;> simp
  · exact hle
  · intro c hc
    rcases hc with hc | hc
    · exact hsym c hc
    · unfold finalSymbols at hc
      split at hc <;> simp at hc
      exact ⟨_, hc⟩
  · unfold finalSymbols
    split <;> simp <;> omega

/-- DEC.CHAR's symbol on an open decoder that takes it (41_base32_decoder.md R133). -/
theorem appendSymbol_inv (cap : Nat) (v : BitVec 5) (d : Decoder) (h : DecoderInv cap d) (ho : d.st = .opened)
    (hn : ¬ (completesByte d = true ∧ d.buf.length = cap)) : DecoderInv cap (appendSymbol v d) := by
  obtain ⟨-, hle, hstream, -, -, -⟩ := h
  obtain ⟨k, hlen, hnb⟩ := hstream (.inl ho)
  by_cases h8 : 8 ≤ d.nb.toNat + 5
  · have hlt : d.buf.length ≠ cap := fun hc => hn ⟨by simp [completesByte, h8], hc⟩
    have hnb' : (BitVec.ofNat 3 (d.nb.toNat + 5 - 8)).toNat = d.nb.toNat + 5 - 8 := by simp; omega
    rw [appendSymbol_of_completes v d h8]
    constructor <;> simp only [hnb']
    · exact toNat_ofNat_mod_lt _ _ _
    · simp
      omega
    · exact fun _ => ⟨k + 1, by simp; omega, by omega⟩
    · simp [ho]
    · simp [ho]
    · simp [ho]
  · have hnb' : (BitVec.ofNat 3 (d.nb.toNat + 5)).toNat = d.nb.toNat + 5 := by simp; omega
    rw [appendSymbol_of_not_completes v d (by omega)]
    constructor <;> simp only [hnb']
    · exact toNat_ofNat_mod_lt _ _ _
    · exact hle
    · exact fun _ => ⟨k + 1, by omega, by omega⟩
    · simp [ho]
    · simp [ho]
    · simp [ho]

/-- DEC.FINAL on an unfinished decoder (41_base32_decoder.md R134). -/
theorem finishDecode_inv (s : State) (h : s.Inv) : (finishDecode s).Inv := by
  refine ⟨h.err, h.enc, ?_, h.pipe⟩
  constructor <;> simp
  exact h.dec.len_le

/-- A request issued with a key that fits (42_hotp_pipeline.md R154). -/
theorem issueRequest_inv (alg : HashAlg) (s : State) (h : s.Inv) : (issueRequest alg s).Inv := by
  refine ⟨h.err, h.enc, h.dec, ?_⟩
  have hkey := h.dec.len_le
  constructor <;> simp [emptyPipeline, holdsTag, holdsValue, hkey]

/-- TRUNC in state TAGGED (42_hotp_pipeline.md R157). -/
theorem truncateTag_inv (s : State) (h : s.Inv) (ht : s.pipe.st = .tagged) : (truncateTag s).Inv := by
  refine ⟨h.err, h.enc, h.dec, ?_⟩
  obtain ⟨hwait, hreq, htag, -, -, -, -, hzero⟩ := h.pipe
  constructor <;> simp [holdsTag, holdsValue]
  · simpa [ht] using hwait
  · exact fun r hr => hreq r hr
  · exact htag (.inl ht)
  · exact hzero (by simp [ht])

/-- The digit counts REDUCE accepts (10_state.md R26). -/
theorem legalDigits_iff (d : BitVec 4) : legalDigits d = true ↔ d.toNat = 6 ∨ d.toNat = 7 ∨ d.toNat = 8 := by
  revert d
  decide

/-- REDUCE in state TRUNCATED or DONE (42_hotp_pipeline.md R158). -/
theorem reduceCode_inv (s : State) (h : s.Inv) (ht : s.pipe.st = .truncated ∨ s.pipe.st = .done) :
    (reduceCode s).Inv := by
  unfold reduceCode
  split
  · rename_i hd
    refine ⟨h.err, h.enc, h.dec, ?_⟩
    obtain ⟨hwait, hreq, htag, -, hvalue, -, -, -⟩ := h.pipe
    have hlt : s.pipe.binCode.toNat % 10 ^ s.cfg.digits.toNat < 2 ^ 27 := by
      have hmod : s.pipe.binCode.toNat % 10 ^ s.cfg.digits.toNat < 10 ^ s.cfg.digits.toNat :=
        Nat.mod_lt _ (by positivity)
      rcases (legalDigits_iff _).1 hd with h | h | h <;> rw [h] at hmod ⊢ <;> omega
    constructor <;> simp [holdsTag, holdsValue]
    · rcases ht with ht | ht <;> simpa [ht] using hwait
    · exact fun r hr => hreq r hr
    · exact htag (by rcases ht with ht | ht <;> simp [holdsTag, ht])
    · exact hvalue (by rcases ht with ht | ht <;> simp [holdsValue, ht])
    · have hmod := Nat.mod_eq_of_lt hlt
      simp only [Nat.reducePow] at hmod hlt
      rw [hmod]
      exact ⟨hd, hlt, rfl⟩
  · exact raise_inv _ _ _ h

/-- A tag of an algorithm's length accepted for the pending request (42_hotp_pipeline.md R155). -/
theorem acceptTag_inv (t : List Byte) (alg : HashAlg) (ht : t.length = tagLen alg) (s : State) (h : s.Inv)
    (hw : s.pipe.st = .wait) : (acceptTag t s).Inv := by
  refine ⟨h.err, h.enc, h.dec, ?_⟩
  obtain ⟨-, -, -, -, -, hvalue, -, hzero⟩ := h.pipe
  constructor <;> simp [holdsTag, holdsValue]
  · exact ⟨alg, ht⟩
  · exact hvalue (by simp [holdsValue, hw])
  · exact hzero (by simp [hw])

/-- The invariant speaks of the error record and the three units only. -/
theorem State.Inv.congr {s t : State} (h : s.Inv) (herr : t.err = s.err) (henc : t.enc = s.enc) (hdec : t.dec = s.dec)
    (hpipe : t.pipe = s.pipe) : t.Inv :=
  ⟨herr ▸ h.err, henc ▸ h.enc, hdec ▸ h.dec, hpipe ▸ h.pipe⟩

end Sys2Proof.Machine
end

