-- ==== Sys2Proof/Laws/PerInstr.lean ====
section
/-!
SUPPORT. Statements made of each command as syntax. `EncodedFields`: the word of a command holds its OP, zeros in RSV, and
its operand byte or 0 in IMM8 (30_encoding.md R91 to R93).
-/

namespace Sys2Proof.Laws.EncodedFields

/-- The three fields of a command's word. -/
def Statement (i : Instr) : Prop :=
  opField (encode i) = i.opcode ∧ rsvField (encode i) = 0 ∧ immField (encode i) = i.operand.getD 0

/-- The fields of any command's word, from the fields it is put together from. -/
theorem of_fields (i : Instr) : Statement i := fields_append i.opcode (i.operand.getD 0) 0#16

theorem nop : Statement .nop := of_fields _
theorem eclr : Statement .eclr := of_fields _
theorem srst : Statement .srst := of_fields _
theorem encInit : Statement .encInit := of_fields _
theorem encByte (b : Byte) : Statement (.encByte b) := of_fields _
theorem encFinal : Statement .encFinal := of_fields _
theorem decInit : Statement .decInit := of_fields _
theorem decChar (c : Byte) : Statement (.decChar c) := of_fields _
theorem decFinal : Statement .decFinal := of_fields _
theorem pipeInit : Statement .pipeInit := of_fields _
theorem hmacReq : Statement .hmacReq := of_fields _
theorem trunc : Statement .trunc := of_fields _
theorem reduce : Statement .reduce := of_fields _

end Sys2Proof.Laws.EncodedFields
end

