-- ==== Sys2Proof/Tests/Slice0.lean ====
section
/-!
SUPPORT. Tests of one step each, their expected values from spec/95_test_vectors.md or worked out from the rule named,
and, for each statement with hypotheses, a witness that meets them.
-/

namespace Sys2Proof.Tests

open Sys2Proof.Machine

/-- The next state of an outcome. -/
def after : Host.Outcome State Fault Refusal → State
  | .next s => s
  | .fault f => nomatch f
  | .refused _ => State.reset

/-- The state after reset with another encoder, decoder or pipeline. -/
def encIs (e : Encoder) : State := { State.reset with enc := e }
def decIs (d : Decoder) : State := { State.reset with dec := d }
def pipeIs (p : Pipeline) : State := { State.reset with pipe := p }

/-- "MZXW", the symbols after "foo" (95 L2.1, step trace). -/
def afterFoo : Encoder := ⟨.opened, 0xF, 4, 3, [0x4D#8, 0x5A#8, 0x58#8, 0x57#8]⟩

/-- The decoder after "MZX" (95 L2.2, step trace). -/
def afterMzx (st : DecSt) (pol : Policy) : Decoder := ⟨st, pol, 0x37, 7, [0x66#8]⟩

/-- The secret "12345678901234567890" as a finished decode (95 L1.2). -/
def keyDone : Decoder :=
  ⟨.done, .strict, 0, 0, [0x31#8, 0x32#8, 0x33#8, 0x34#8, 0x35#8, 0x36#8, 0x37#8, 0x38#8, 0x39#8, 0x30#8,
    0x31#8, 0x32#8, 0x33#8, 0x34#8, 0x35#8, 0x36#8, 0x37#8, 0x38#8, 0x39#8, 0x30#8]⟩

/-- The tag of RFC 4226 §5.4 (95 L2.3). -/
def rfcTag : List Byte :=
  [0x1f#8, 0x86#8, 0x98#8, 0x69#8, 0x0e#8, 0x02#8, 0xca#8, 0x16#8, 0x61#8, 0x85#8, 0x50#8, 0xef#8, 0x7f#8, 0x19#8,
    0xda#8, 0x8e#8, 0x94#8, 0x5b#8, 0x55#8, 0x5a#8]

/-- A pipeline with the given state and tag, its request number 5. -/
def tagged (st : PipeSt) (tag : List Byte) : Pipeline :=
  ⟨st, 5, none, tag, 0, 0, 0, Vector.replicate 8 0, 0⟩

/-- A pipeline that holds counter 4's truncated value (95 L1.2) in the given state. -/
def valued (st : PipeSt) : Pipeline := { tagged st rfcTag with offset := 12, binCode := 1640338314 }

/-- A request for the empty key, and a state in which it is pending. -/
def emptyKeyRequest : Request := ⟨1, .sha1, [], Vector.replicate 8 0⟩

def waiting : State where
  cfg := ⟨.strict, 0, 6⟩
  ctrLo := 0
  ctrHi := 0
  err := noError
  enc := emptyEncoder
  dec := ⟨.done, .strict, 0, 0, []⟩
  pipe := { emptyPipeline 1 with st := .wait, req := some emptyKeyRequest }
  host := ⟨[], 0, 0, []⟩
  schedule := []

/-! ### Well-formedness -/

theorem test_operand_above_255_refused : CommandText.wf ⟨"ENC.BYTE", some 256⟩ = false := by decide
theorem test_char_operand_above_255_refused : CommandText.wf ⟨"DEC.CHAR", some 300⟩ = false := by decide
theorem test_missing_operand_refused : CommandText.wf ⟨"DEC.CHAR", none⟩ = false := by decide
theorem test_operand_on_plain_command_refused : CommandText.wf ⟨"NOP", some 0⟩ = false := by decide
theorem test_unknown_mnemonic_refused : CommandText.wf ⟨"ENC", none⟩ = false := by decide
theorem test_legal_command_accepted : CommandText.wf ⟨"ENC.BYTE", some 255⟩ = true := by decide
theorem test_plain_command_accepted : CommandText.wf ⟨"REDUCE", none⟩ = true := by decide

/-! ### Decoding: words written out from the opcode map (R93) -/

theorem test_decode_nop : decode 0x00000000#32 = .ok .nop := by rfl
theorem test_decode_eclr : decode 0x01000000#32 = .ok .eclr := by rfl
theorem test_decode_srst : decode 0x02000000#32 = .ok .srst := by rfl
theorem test_decode_enc_init : decode 0x10000000#32 = .ok .encInit := by rfl
theorem test_decode_enc_byte : decode 0x11000066#32 = .ok (.encByte 0x66#8) := by rfl
theorem test_decode_enc_final : decode 0x12000000#32 = .ok .encFinal := by rfl
theorem test_decode_dec_init : decode 0x20000000#32 = .ok .decInit := by rfl
theorem test_decode_dec_char : decode 0x2100005A#32 = .ok (.decChar 0x5A#8) := by rfl
theorem test_decode_dec_final : decode 0x22000000#32 = .ok .decFinal := by rfl
theorem test_decode_pipe_init : decode 0x30000000#32 = .ok .pipeInit := by rfl
theorem test_decode_hmac_req : decode 0x31000000#32 = .ok .hmacReq := by rfl
theorem test_decode_trunc : decode 0x32000000#32 = .ok .trunc := by rfl
theorem test_decode_reduce : decode 0x33000000#32 = .ok .reduce := by rfl
/-- R94, R95: an undefined OP, an operand where none is, a reserved bit. -/
theorem test_decode_undefined_op : decode 0x03000000#32 = .error .undefinedOp := by rfl
theorem test_decode_operand_on_enc_init : decode 0x10000001#32 = .error .operandNotZero := by rfl
theorem test_decode_reserved_bit : decode 0x30000100#32 = .error .reservedNotZero := by rfl
theorem test_decode_reserved_bit_with_operand : decode 0x11010066#32 = .error .reservedNotZero := by rfl
theorem test_encode_dec_char : encode (.decChar 0x41#8) = 0x21000041#32 := by decide
theorem test_table_word : decodeTableWord 32 0x110000FF = some (.encByte 0xFF#8) := by decide
theorem test_table_word_refused : decodeTableWord 32 0x03000000 = none := by decide
theorem test_disassembly_digits : hexText 8 0xFFABCDEF = ['F', 'F', 'A', 'B', 'C', 'D', 'E', 'F'] := by decide

/-- The placed word runs as the first instruction after reset. -/
theorem test_placed_word_runs :
    busRead 6 (after (step (State.reset.withFetchWord 32 0x11000066))) = 0x00010306#32 := by decide

/-- 95 L3, P3: WR CMD, 0x10000001 records IllegalCommand and touches no unit (R95). -/
theorem test_illegal_word_status : busRead 1 (after (busWrite 0 0x10000001#32 State.reset)) = 0x00006000#32 := by
  decide

/-! ### One step of each command -/

theorem test_nop : after (exec .nop (encIs afterFoo)) = encIs afterFoo := by decide

/-- R181: ERROR stays, the record goes. -/
theorem test_eclr : busRead 1 (after (exec .eclr (raise .overflow .enc State.reset))) = 0x00000002#32 := by decide

/-- 95 L2.2: SRST latches POLICY and empties the decoder. -/
theorem test_srst_latches_policy :
    busRead 8 (after (exec .srst { decIs (afterMzx .opened .strict) with cfg := ⟨.strip, 0, 6⟩ })) = 0x00010000#32 := by
  decide
theorem test_srst_clears_status :
    busRead 1 (after (exec .srst (raise .sequence .pipe (raise .overflow .enc State.reset)))) = 0 := by decide

/-- 95 L2.1: leaving ERROR; ERRCODE stays. -/
theorem test_enc_init_leaves_error :
    busRead 1 (after (exec .encInit (raise .overflow .enc State.reset))) = 0x00005000#32 := by decide

/-- 95 L2.1, step trace of "foobar": ENC.BYTE 0x62 after "foo". -/
theorem test_enc_byte_register : busRead 6 (after (exec (.encByte 0x62#8) (encIs afterFoo))) = 0x00040202#32 := by decide
theorem test_enc_byte_symbols :
    (after (exec (.encByte 0x62#8) (encIs afterFoo))).enc.buf = [0x4D#8, 0x5A#8, 0x58#8, 0x57#8, 0x36#8, 0x59#8] := by
  decide

/-- 95 L2.1: "foo" ends with "MZXW6"; words 64 and 65. -/
theorem test_enc_final_window :
    busRead 64 (after (exec .encFinal (encIs afterFoo))) = 0x57585A4D#32 ∧
      busRead 65 (after (exec .encFinal (encIs afterFoo))) = 0x00000036#32 := by decide
/-- 95 L2.1: final twice. -/
theorem test_enc_final_twice :
    busRead 1 (after (exec .encFinal (encIs ⟨.done, 0, 0, 1, [0x4D#8, 0x59#8]⟩))) = 0x00004002#32 := by decide

theorem test_dec_init : busRead 8 (after (exec .decInit { State.reset with cfg := ⟨.strip, 0, 6⟩ })) = 0x00010000#32 := by
  decide

/-- 95 L2.2, step trace of "MZXW6YTBOI": 'W' after "MZX". -/
theorem test_dec_char_symbol :
    busRead 8 (after (exec (.decChar 0x57#8) (decIs (afterMzx .opened .strict)))) = 0x00000406#32 ∧
      (after (exec (.decChar 0x57#8) (decIs (afterMzx .opened .strict)))).dec.buf = [0x66#8, 0x6F#8] := by decide
/-- 95 L1.4: '1' under STRICT. -/
theorem test_dec_char_rejected :
    busRead 1 (after (exec (.decChar 0x31#8) (decIs (afterMzx .opened .strict)))) = 0x00001030#32 := by decide

/-- R134: the partial bits are dropped, the bytes stay (95 L2.2, "MZX" prefix of "MZXX"). -/
theorem test_dec_final :
    busRead 8 (after (exec .decFinal (decIs (afterMzx .pad .strict)))) = 0 ∧
      busRead 1 (after (exec .decFinal (decIs (afterMzx .pad .strict)))) = 0x00000020#32 ∧
      busRead 96 (after (exec .decFinal (decIs (afterMzx .pad .strict)))) = 0x00000066#32 := by decide

theorem test_pipe_init :
    (after (exec .pipeInit waiting)).pipe = ⟨.idle, 1, none, [], 0, 0, 0, Vector.replicate 8 0, 0⟩ := by decide

/-- 95 L2.3: CTR_HI = 1 and CTR_LO = 0 give the message 00 00 00 01 00 00 00 00; REQ_SEQ wraps from 255 to 0. -/
theorem test_hmac_req_message :
    (after (exec .hmacReq { decIs keyDone with ctrHi := 1, pipe := { State.reset.pipe with reqSeq := 255 } })).pipe.req
      = some ⟨0, .sha1, keyDone.buf, #v[0, 0, 0, 1, 0, 0, 0, 0]⟩ := by decide
/-- 95 L2.3: the reserved algorithm. -/
theorem test_hmac_req_reserved_algorithm :
    busRead 1 (after (exec .hmacReq { decIs keyDone with cfg := ⟨.strict, 3, 6⟩ })) = 0x00002520#32 := by decide

/-- 95 L2.3, RFC 4226 §5.4: OFFSET 10, BINCODE 0x50EF7F19. -/
theorem test_trunc :
    busRead 10 (after (exec .trunc (pipeIs (tagged .tagged rfcTag)))) = 10 ∧
      busRead 11 (after (exec .trunc (pipeIs (tagged .tagged rfcTag)))) = 0x50EF7F19#32 := by decide
/-- 95 L2.3: all bytes 0xFF; the top bit is masked off. -/
theorem test_trunc_mask :
    busRead 11 (after (exec .trunc (pipeIs (tagged .tagged (List.replicate 20 0xFF#8))))) = 0x7FFFFFFF#32 := by decide

/-- 95 L1.2: counter 4 at 7 digits is "0338314". -/
theorem test_reduce_leading_zero :
    busRead 12 (after (exec .reduce { pipeIs (valued .truncated) with cfg := ⟨.strict, 0, 7⟩ })) = 338314 ∧
      busRead 13 (after (exec .reduce { pipeIs (valued .truncated) with cfg := ⟨.strict, 0, 7⟩ })) = 0x38333330#32 ∧
      busRead 14 (after (exec .reduce { pipeIs (valued .truncated) with cfg := ⟨.strict, 0, 7⟩ })) = 0x00343133#32 := by
  decide
/-- 95 L2.3: bad digits. -/
theorem test_reduce_bad_digits :
    busRead 1 (after (exec .reduce { decIs keyDone with pipe := valued .truncated, cfg := ⟨.strict, 0, 5⟩ }))
      = 0x00003520#32 := by decide

/-! ### The generator's port, the registers and reset -/

/-- 95 L2.3, withdrawn request: a response with the old number is dropped, one with the pending number accepted. -/
theorem test_old_response_dropped :
    after (agentStep (.response ⟨0, false, Vector.replicate 64 0xEE⟩) waiting) = waiting := by decide
theorem test_response_accepted :
    busRead 9 (after (agentStep (.response ⟨1, false, Vector.replicate 64 0xEE⟩) waiting)) = 20 ∧
      busRead 1 (after (agentStep (.response ⟨1, false, Vector.replicate 64 0xEE⟩) waiting)) = 0x00000220#32 := by decide
/-- 70 R230: CFG after reset, and R48: CAPS. -/
theorem test_reset_registers : busRead 2 State.reset = 0x00000600#32 ∧ busRead 17 State.reset = 0x01674040#32 := by decide
/-- R67: bits outside the fields are dropped. -/
theorem test_cfg_write : busRead 2 (after (busWrite 2 0xFFFFFFFF#32 State.reset)) = 0x00000F31#32 := by decide
/-- R99: CTR.SET writes the low half first. -/
theorem test_ctr_set :
    expand (.ctrSet 0x00000001023523EC#64) = some [.wr 3 0x023523EC#32, .wr 4 0x00000001#32] := by decide

/-- R98: RDW reads base + k, past the window too; R60: there is no word above 127. -/
theorem test_rdw_past_its_window :
    expand (.rdw .encBuf 32) = some [.rd 96] ∧ expand (.rdw .tagBuf 15) = some [.rd 127] ∧
      expand (.rdw .tagBuf 16) = none := by decide
/-- R22, R98: a POLLEQ whose condition fails (STATUS reads 0) is one transaction and stays at its statement. -/
theorem test_poll_counts_its_transaction :
    (after (hostOp (.pollEq 1 0xF#32 1#32) State.reset)).host = ⟨[], 0, 1, [0#32]⟩ := by decide

/-! ### Witnesses: a state and operands that meet each statement's hypotheses, clause by clause -/

theorem witness_OneRowOfTheOpcodeMapPerLegalWord :
    (⟨"DEC.CHAR", 0x21000000#32, 0xFFFFFF00#32⟩ : OpcodeRow) ∈ opcodeTable ∧
      OpcodeRow.accepts ⟨"DEC.CHAR", 0x21000000#32, 0xFFFFFF00#32⟩ 0x210000FF#32 = true ∧
      decode 0x210000FF#32 = .ok (.decChar 0xFF#8) ∧ (Instr.decChar 0xFF#8).operand = some 0xFF#8 :=
  ⟨by decide, by decide, rfl, rfl⟩

/-- The host about to write CMD with ENC.BYTE 0x66. -/
def hostWrites (schedule : List Move) : State :=
  { State.reset with host := ⟨[.wr 0 0x11000066#32], 0, 0, []⟩, schedule := schedule }

theorem witness_StepRunsTheDecodedCommand_scheduled :
    (hostWrites [.host, .reset]).schedule = .host :: [.reset] ∧
      (hostWrites [.host, .reset]).host.program[(hostWrites [.host, .reset]).host.statement]? = some (.wr 0 0x11000066#32) ∧
      (Instr.encByte 0x66#8).wf = true ∧ decode 0x11000066#32 = .ok (.encByte 0x66#8) :=
  ⟨rfl, rfl, rfl, rfl⟩

theorem witness_StepRunsTheDecodedCommand_empty_schedule :
    (hostWrites []).schedule = [] ∧
      (hostWrites []).host.program[(hostWrites []).host.statement]? = some (.wr 0 0x11000066#32) ∧
      (Instr.encByte 0x66#8).wf = true ∧ decode 0x11000066#32 = .ok (.encByte 0x66#8) :=
  ⟨rfl, rfl, rfl, rfl⟩

theorem witness_IllegalWordOnlyRecordsTheError :
    legalWord 0x03000000#32 = false ∧ legalWord 0x30000100#32 = false ∧ legalWord 0x10000001#32 = false ∧
      errCode State.reset.err = 0 ∧ errCode (raise .overflow .enc State.reset).err ≠ 0 := by decide

theorem witness_UnitsInErrorIgnoreTheirCommands :
    (raise .overflow .enc State.reset).enc.st = .error ∧ (raise .overflow .dec State.reset).dec.st = .error ∧
      (raise .sequence .pipe State.reset).pipe.st = .error ∧ legalWord 0x11010066#32 = false := by decide

theorem witness_ErrorRecordChangesOnlyByRaiseOrClear :
    exec .trunc State.reset = .next (raise .sequence .pipe State.reset) ∧
      step (hostWrites []) = .next (after (step (hostWrites []))) := ⟨rfl, rfl⟩

theorem witness_EncByteEmitsTheCompleteGroups :
    (encIs ⟨.error, 0, 0, 0, []⟩).enc.st = .error ∧ (encIs ⟨.done, 0, 0, 0, []⟩).enc.st = .done ∧
      ((encIs ⟨.opened, 2, 2, 64, []⟩).enc.st = .opened ∧ (encIs ⟨.opened, 2, 2, 64, []⟩).enc.inCount.toNat = 64) ∧
      ((encIs ⟨.opened, 15, 4, 63, []⟩).enc.st = .opened ∧ (encIs ⟨.opened, 15, 4, 63, []⟩).enc.inCount.toNat ≠ 64) ∧
      ((encIs ⟨.opened, 0, 0, 0, []⟩).enc.st = .opened ∧ (encIs ⟨.opened, 0, 0, 0, []⟩).enc.inCount.toNat ≠ 64) := by
  decide

theorem witness_EncFinalEmitsTheLastGroup :
    (encIs ⟨.error, 0, 0, 0, []⟩).enc.st = .error ∧ (encIs ⟨.done, 0, 0, 0, []⟩).enc.st = .done ∧
      ((encIs afterFoo).enc.st = .opened ∧ (encIs afterFoo).enc.nb ≠ 0) ∧
      ((encIs ⟨.opened, 0, 0, 0, []⟩).enc.st = .opened ∧ (encIs ⟨.opened, 0, 0, 0, []⟩).enc.nb = 0) := by decide

/-- Both clauses at their bounds: values 0, 25, 26 and 31 are 'A', 'Z', '2' and '7'. -/
theorem witness_AlphabetInValueOrder :
    (25#5).toNat ≤ 25 ∧ 26 ≤ (26#5).toNat ∧ 26 ≤ (31#5).toNat ∧
      (alpha 0#5, alpha 25#5, alpha 26#5, alpha 31#5) = (0x41#8, 0x5A#8, 0x32#8, 0x37#8) := by decide

theorem witness_EncodeStreamGivesTheSourceEncoding :
    (List.replicate 64 0xFF#8).length ≤ 64 ∧ ([] : List Byte).length ≤ 64 := by decide

theorem witness_EncoderSeesOnlyItsOwnCommands :
    waiting.enc = State.reset.enc ∧ waiting ≠ State.reset ∧
      [Instr.encInit, .trunc, .encByte 1#8].filter actsOnEncoder = [.encInit, .encByte 1#8] := by decide

/-- Every clause at its bounds; the expected classes are those of 41 R131. -/
theorem witness_CharactersAreClassified_symbols :
    (classify 0x41#8, classify 0x5A#8) = (.symbol 0, .symbol 25) ∧
      (classify 0x61#8, classify 0x7A#8) = (.symbol 0, .symbol 25) ∧
      (classify 0x32#8, classify 0x37#8) = (.symbol 26, .symbol 31) := by decide
theorem witness_CharactersAreClassified_pad : classify 0x3D#8 = .pad := by decide
theorem witness_CharactersAreClassified_other :
    ∀ c ∈ [0x00#8, 0x31#8, 0x38#8, 0x3C#8, 0x3E#8, 0x40#8, 0x5B#8, 0x60#8, 0x7B#8, 0xC0#8, 0xFF#8],
      classify c = .other := by decide

theorem witness_DecCharTakesTheCharacter_stopped :
    (decIs ⟨.error, .strict, 0, 0, []⟩).dec.st = .error ∧ (decIs keyDone).dec.st = .done ∧
      (decIs (afterMzx .pad .strict)).dec.st = .pad := by decide
theorem witness_DecCharTakesTheCharacter_pad_then_symbol :
    (decIs (afterMzx .pad .strict)).dec.st = .pad ∧ ∃ v, classify 0x78#8 = .symbol v :=
  ⟨rfl, 23, by decide⟩
/-- The symbol clauses meet at 2 and 3 pending bits, and at 63 and 64 bytes. -/
theorem witness_DecCharTakesTheCharacter_symbol :
    classify 0x37#8 = .symbol 31 ∧
      (8 ≤ (3#3).toNat + 5 ∧ (List.replicate 64 0#8).length = 64) ∧
      (8 ≤ (3#3).toNat + 5 ∧ (List.replicate 63 0#8).length ≠ 64) ∧ (2#3).toNat + 5 < 8 := by decide
theorem witness_DecCharTakesTheCharacter_pad_and_other :
    classify 0x3D#8 = .pad ∧ classify 0x20#8 = .other ∧
      ((decIs (afterMzx .opened .strict)).dec.st = .opened ∧ (decIs (afterMzx .opened .strict)).dec.pol = .strict) ∧
      ((decIs (afterMzx .opened .strip)).dec.st = .opened ∧ (decIs (afterMzx .opened .strip)).dec.pol = .strip) ∧
      ((decIs (afterMzx .pad .strict)).dec.st = .pad ∧ (decIs (afterMzx .pad .strict)).dec.pol = .strict) := by decide

theorem witness_DecFinalDropsThePartialByte :
    (decIs ⟨.error, .strict, 0, 0, []⟩).dec.st = .error ∧ (decIs keyDone).dec.st = .done ∧
      (decIs (afterMzx .opened .strip)).dec.st = .opened ∧ (decIs (afterMzx .pad .strict)).dec.st = .pad := by decide

/-- 103 symbols fill the buffer, 104 overflow it (95 L2.2). -/
theorem symbolsOf_length (n : Nat) : (symbolsOf (List.replicate n 0x41#8)).length = n := by
  induction n with
  | zero => rfl
  | succ n ih =>
    have h : symbolsOf (List.replicate (n + 1) 0x41#8) = 0#5 :: symbolsOf (List.replicate n 0x41#8) := rfl
    rw [h, List.length_cons, ih]

theorem witness_DecodeStreamUnderStrip :
    ({ State.reset with cfg := ⟨.strip, 0, 6⟩ } : State).cfg.policy = .strip ∧
      5 * (symbolsOf (List.replicate 103 0x41#8)).length / 8 ≤ 64 ∧
      64 < 5 * (symbolsOf (List.replicate 104 0x41#8)).length / 8 := by
  simp only [symbolsOf_length]; decide

/-- A text of symbols only is not rejected. -/
theorem not_strictRejects_symbols (n : Nat) : ¬ strictRejects (List.replicate n 0x41#8) := by
  have hs : classify 0x41#8 = .symbol 0 := by decide
  rintro (⟨c, hc, ho⟩ | ⟨before, rest, c, ht, hp, -⟩)
  · rw [List.eq_of_mem_replicate hc, hs] at ho; cases ho
  · have hc : c ∈ List.replicate n 0x41#8 := ht ▸ by simp
    rw [List.eq_of_mem_replicate hc, hs] at hp; cases hp

theorem witness_DecodeStreamUnderStrict_accepted :
    State.reset.cfg.policy = .strict ∧
      (¬ strictRejects (List.replicate 103 0x41#8) ∧ 5 * (symbolsOf (List.replicate 103 0x41#8)).length / 8 ≤ 64) ∧
      (¬ strictRejects (List.replicate 104 0x41#8) ∧ 64 < 5 * (symbolsOf (List.replicate 104 0x41#8)).length / 8) :=
  ⟨rfl, ⟨not_strictRejects_symbols _, by rw [symbolsOf_length]⟩,
    not_strictRejects_symbols _, by rw [symbolsOf_length]; decide⟩

/-- "MZ XW" and "=x" (95 L2.2). -/
theorem witness_DecodeStreamUnderStrict_rejected :
    (strictRejects [0x4D#8, 0x5A#8, 0x20#8, 0x58#8, 0x57#8] ∧ strictRejects [0x3D#8, 0x78#8]) ∧
      5 * (symbolsOf [0x4D#8, 0x5A#8, 0x20#8, 0x58#8, 0x57#8]).length / 8 ≤ 64 ∧
      5 * (symbolsOf [0x3D#8, 0x78#8]).length / 8 ≤ 64 :=
  ⟨⟨.inl ⟨0x20#8, by decide, by decide⟩,
    .inr ⟨[], [0x78#8], 0x3D#8, rfl, by decide, 0x78#8, by decide, 23, by decide⟩⟩, by decide, by decide⟩

/-- 103 symbols fill the buffer; the next character is a space, whatever follows it. -/
theorem witness_DecodeStreamUnderStrict_rejected_before_overflow :
    ¬ strictRejects (List.replicate 103 0x41#8) ∧ strictRejects (List.replicate 103 0x41#8 ++ [0x20#8]) ∧
      5 * (symbolsOf (List.replicate 103 0x41#8)).length / 8 ≤ 64 :=
  ⟨not_strictRejects_symbols _, .inl ⟨0x20#8, by simp, by decide⟩, by rw [symbolsOf_length]⟩

theorem witness_DecodingTheEncodingGivesTheBytesBack : (List.replicate 64 0xAA#8).length ≤ 64 := by decide

theorem witness_HmacReqSnapshotsTheRequest :
    (raise .sequence .pipe State.reset).pipe.st = .error ∧ waiting.pipe.st = .wait ∧
      (State.reset.pipe.st ≠ .error ∧ State.reset.pipe.st ≠ .wait) ∧ State.reset.dec.st ≠ .done ∧
      (decIs keyDone).dec.st = .done ∧ (⟨.strict, 3, 6⟩ : Cfg).alg = 3 ∧
      (⟨.strict, 0, 6⟩ : Cfg).alg = algCode .sha1 ∧ (⟨.strict, 2, 6⟩ : Cfg).alg = algCode .sha512 := by decide

theorem witness_GeneratorAnswersThePendingRequest :
    ({ waiting with schedule := [.generator] } : State).schedule = .generator :: [] ∧ waiting.pipe.st = .wait ∧
      waiting.pipe.req = some emptyKeyRequest := ⟨rfl, rfl, rfl⟩
theorem witness_GeneratorAnswersThePendingRequest_none_pending :
    ({ State.reset with schedule := [.generator] } : State).schedule = .generator :: [] ∧
      State.reset.pipe.st ≠ .wait ∧ State.reset.pipe.req = none := ⟨rfl, by decide, rfl⟩

theorem witness_OnlyTheMatchingResponseIsAccepted :
    ({ waiting with schedule := [.response ⟨1, true, Vector.replicate 64 0⟩] } : State).schedule
        = .response ⟨1, true, Vector.replicate 64 0⟩ :: [] ∧
      waiting.pipe.st = .wait ∧ waiting.pipe.req = some emptyKeyRequest ∧
      (⟨1, true, Vector.replicate 64 0⟩ : Response).seq = emptyKeyRequest.seq ∧
      (⟨1, false, Vector.replicate 64 0⟩ : Response).seq = emptyKeyRequest.seq ∧
      State.reset.pipe.st ≠ .wait ∧ (⟨0, false, Vector.replicate 64 0⟩ : Response).seq ≠ emptyKeyRequest.seq :=
  ⟨rfl, rfl, rfl, rfl, rfl, by decide, by decide⟩

theorem witness_TruncSelectsThirtyOneBits :
    (raise .sequence .pipe State.reset).pipe.st = .error ∧
      (State.reset.pipe.st ≠ .error ∧ State.reset.pipe.st ≠ .tagged) ∧ (pipeIs (tagged .tagged rfcTag)).pipe.st = .tagged ∧
      rfcTag.length = tagLen .sha1 ∧ (List.replicate 32 0#8).length = tagLen .sha256 ∧
      (List.replicate 64 0#8).length = tagLen .sha512 := by decide

theorem witness_ReduceTakesTheRemainder :
    (raise .sequence .pipe State.reset).pipe.st = .error ∧ State.reset.pipe.st = .idle ∧ waiting.pipe.st = .wait ∧
      (pipeIs (tagged .tagged rfcTag)).pipe.st = .tagged ∧ (pipeIs (valued .truncated)).pipe.st = .truncated ∧
      (pipeIs (valued .done)).pipe.st = .done ∧ (∀ d ∈ [0#4, 5#4, 9#4, 15#4], d ∉ [6#4, 7#4, 8#4]) ∧
      6#4 ∈ [6#4, 7#4, 8#4] ∧ 8#4 ∈ [6#4, 7#4, 8#4] := by decide

theorem witness_DecimalRenderingIsExact :
    (8 ≤ 8 ∧ 99999999 < 10 ^ 8) ∧ (6 ≤ 8 ∧ 999999 < 10 ^ 6) ∧ (0 ≤ 8 ∧ 0 < 10 ^ 0) := by decide

theorem witness_DerivationComputesTheCode :
    ({ decIs keyDone with cfg := ⟨.strict, 2, 8⟩, pipe := valued .done } : State).dec.st = .done ∧
      (⟨.strict, 2, 8⟩ : Cfg).alg = algCode .sha512 ∧ (⟨.strict, 2, 8⟩ : Cfg).digits ∈ [6#4, 7#4, 8#4] ∧
      (valued .done).st ≠ .wait ∧ (valued .done).st ≠ .error := by decide

theorem witness_RequestNumberChangesOnlyOnIssue :
    exec .hmacReq (decIs keyDone) = .next (issueRequest .sha1 (decIs keyDone)) ∧
      (issueRequest .sha1 (decIs keyDone)).pipe.reqSeq ≠ (decIs keyDone).pipe.reqSeq ∧
      step { pipeIs (tagged .tagged rfcTag) with schedule := [.reset] } = .next State.reset ∧
      State.reset.pipe.reqSeq ≠ (tagged .tagged rfcTag).reqSeq := ⟨rfl, by decide, rfl, by decide⟩

theorem witness_PendingRequestIsConstant :
    step { waiting with schedule := [.host] } = .next waiting ∧
      (requestPort { waiting with schedule := [.host] }).valid = true ∧ (requestPort waiting).valid = true :=
  ⟨rfl, by decide, by decide⟩

theorem witness_RequestPortPresentsTheRequest :
    State.reset.pipe.req = none ∧ waiting.pipe.req = some emptyKeyRequest ∧ emptyKeyRequest.key.length ≤ 64 ∧
      (List.replicate 64 0#8).length ≤ 64 := by decide

/-- A state with a pending request has the invariant. -/
theorem waiting_inv : waiting.Inv where
  err h := nomatch h
  enc := emptyEncoder_inv _ .opened (.inl rfl)
  dec := {
    acc_lt := by decide
    len_le := by decide
    at_stream := by rintro (h | h) <;> (cases h)
    at_done := fun _ => rfl
    at_error := fun h => nomatch h
    pad_strict := fun h => nomatch h }
  pipe := {
    wait_iff := ⟨fun _ h => (nomatch h), fun _ => rfl⟩
    request := fun _ h => Option.some.inj h ▸ ⟨rfl, by decide⟩
    tag_held := by rintro (h | h | h) <;> (cases h)
    tag_empty := fun _ => rfl
    value_held := by rintro (h | h) <;> (cases h)
    value_zero := fun _ => ⟨rfl, rfl⟩
    code_held := fun h => nomatch h
    code_zero := fun _ => ⟨rfl, rfl, rfl⟩ }

theorem witness_ResultsReadZeroWhilePending :
    waiting.Inv ∧ waiting.pipe.st = .wait ∧ (9 ≤ (9#7).toNat ∧ (15#7).toNat ≤ 15) ∧ 112 ≤ (112#7).toNat ∧
      112 ≤ (127#7).toNat := ⟨waiting_inv, rfl, by decide, by decide, by decide⟩

theorem witness_WaitEndsByTheGeneratorsStep :
    State.Inv { waiting with schedule := [.host, .generator, .host] } ∧
      ({ waiting with schedule := [.host, .generator, .host] } : State).schedule = [.host] ++ .generator :: [.host] ∧
      generatorEnabled { waiting with schedule := [.host, .generator, .host] } :=
  ⟨waiting_inv.congr rfl rfl rfl rfl, rfl, rfl⟩

theorem witness_CommandsNeverWriteTheConfiguration :
    exec .srst waiting = .next (softReset waiting) := rfl

theorem witness_OtherWritesHaveNoEffect :
    (1#7).toNat = 1 ∧ 5 ≤ (5#7).toNat ∧ 5 ≤ (127#7).toNat ∧ (18 ≤ (18#7).toNat ∧ (63#7).toNat ≤ 63) := by decide

theorem witness_WindowsShowTheBuffers : 127 < 128 ∧ 63 < 64 ∧ 64 + 127 / 4 = 95 ∧ 96 + 63 / 4 = 111 := by decide

/-- The host about to read or poll STATUS. -/
def hostDoes (o : HostOp) (schedule : List Move) : State :=
  { State.reset with host := ⟨[o], 0, 0, []⟩, schedule := schedule }

theorem witness_ReadsChangeNoBlockState :
    ((hostDoes (.rd 1) [.host]).schedule = .host :: [] ∧
      (hostDoes (.rd 1) [.host]).host.program[(hostDoes (.rd 1) [.host]).host.statement]? = some (.rd 1)) ∧
    ((hostDoes (.rd 1) []).schedule = [] ∧
      (hostDoes (.rd 1) []).host.program[(hostDoes (.rd 1) []).host.statement]? = some (.rd 1)) :=
  ⟨⟨rfl, rfl⟩, rfl, rfl⟩

theorem witness_PollingReadsUntilTheConditionHolds_pollNe :
    ((hostDoes waitPipeOp [.host, .reset]).schedule = .host :: [.reset] ∧
      (hostDoes waitPipeOp [.host, .reset]).host.program[(hostDoes waitPipeOp [.host, .reset]).host.statement]? =
        some (.pollNe 1 0x00000F00#32 0x00000100#32)) ∧
    ((hostDoes waitPipeOp []).schedule = [] ∧
      (hostDoes waitPipeOp []).host.program[(hostDoes waitPipeOp []).host.statement]? =
        some (.pollNe 1 0x00000F00#32 0x00000100#32)) := ⟨⟨rfl, rfl⟩, rfl, rfl⟩

theorem witness_PollingReadsUntilTheConditionHolds_pollEq :
    ((hostDoes (.pollEq 1 0xF#32 1#32) [.host]).schedule = .host :: [] ∧
      (hostDoes (.pollEq 1 0xF#32 1#32) [.host]).host.program[0]? = some (.pollEq 1 0xF#32 1#32)) ∧
    ((hostDoes (.pollEq 1 0xF#32 1#32) []).schedule = [] ∧
      (hostDoes (.pollEq 1 0xF#32 1#32) []).host.program[0]? = some (.pollEq 1 0xF#32 1#32)) :=
  ⟨⟨rfl, rfl⟩, rfl, rfl⟩

theorem witness_DataRegistersShowTheirElements : waiting.Inv := waiting_inv

theorem witness_AssemblerAcceptsTheWellFormedCommands :
    assembleCommand ⟨"ENC.BYTE", some 255⟩ = some (.encByte 255#8) ∧ assembleCommand ⟨"NOP", none⟩ = some .nop := by
  decide

theorem witness_DisassemblyNamesTheCommand :
    Instr.trunc.operand = none ∧ (Instr.encByte 0#8).operand = some 0#8 ∧ legalWord 0xFFFFFFFF#32 = false := by decide

/-- Addresses beside the words each frame names. -/
theorem witness_EncoderCommandsLeaveTheOtherUnits :
    exec (.encByte 0x66#8) (encIs afterFoo) = .next (after (exec (.encByte 0x66#8) (encIs afterFoo))) ∧
      (after (exec (.encByte 0x66#8) (encIs afterFoo))).enc.st ≠ .error ∧
      (∀ a ∈ [0#7, 2#7, 4#7, 7#7, 63#7, 96#7, 127#7],
        a.toNat ∉ [1, 5, 6] ∧ ¬ (64 ≤ a.toNat ∧ a.toNat ≤ 95)) := ⟨rfl, by decide, by decide⟩
theorem witness_DecoderCommandsLeaveTheOtherUnits :
    exec (.decChar 0x57#8) (decIs (afterMzx .opened .strict)) =
        .next (after (exec (.decChar 0x57#8) (decIs (afterMzx .opened .strict)))) ∧
      (after (exec (.decChar 0x57#8) (decIs (afterMzx .opened .strict)))).dec.st ≠ .error ∧
      (∀ a ∈ [0#7, 2#7, 6#7, 9#7, 95#7, 112#7, 127#7],
        a.toNat ∉ [1, 7, 8] ∧ ¬ (96 ≤ a.toNat ∧ a.toNat ≤ 111)) := ⟨rfl, by decide, by decide⟩
theorem witness_PipelineCommandsLeaveTheOtherUnits :
    exec .trunc (pipeIs (tagged .tagged rfcTag)) = .next (after (exec .trunc (pipeIs (tagged .tagged rfcTag)))) ∧
      (after (exec .trunc (pipeIs (tagged .tagged rfcTag)))).pipe.st ≠ .error ∧
      (∀ a ∈ [0#7, 2#7, 8#7, 17#7, 111#7],
        a.toNat ≠ 1 ∧ ¬ (9 ≤ a.toNat ∧ a.toNat ≤ 16) ∧ ¬ 112 ≤ a.toNat) := ⟨rfl, by decide, by decide⟩

theorem witness_ResetGivesTheResetValues :
    ({ waiting with schedule := [.reset, .host] } : State).schedule = .reset :: [.host] := rfl

theorem witness_StepKeepsTheInvariant : waiting.Inv ∧ step waiting = .next waiting := ⟨waiting_inv, rfl⟩

end Sys2Proof.Tests
end

section
/-!
SUPPORT. The decoder undoes the encoder and only it: a word decodes to a command exactly if it is that command's word
(30_encoding.md R93, R94, R101).
-/

namespace Sys2Proof

/-- What makes a word a command's: OP and the operand byte name it (R93), RSV is 0, and IMM8 is 0 without an operand
(R94). -/
theorem decode_eq_ok_iff_fields (w : Word) (i : Instr) :
    decode w = .ok i ↔ instrOfOp (opField w) (immField w) = some i ∧ rsvField w = 0 ∧
      (i.operand = none → immField w = 0) := by
  unfold decode
  split
  · next h => simp [h]
  · next j h =>
    rw [h, Option.some.injEq]
    split_ifs with hrsv himm
    · exact iff_of_false (by simp) fun hw => hrsv hw.2.1
    · exact iff_of_false (by simp) fun ⟨hj, _, hzero⟩ => himm.2 (hzero (hj ▸ himm.1))
    · simp only [Except.ok.injEq]
      constructor
      · rintro rfl
        exact ⟨rfl, not_not.1 hrsv, fun hnone => not_not.1 fun hne => himm ⟨hnone, hne⟩⟩
      · exact And.left

/-- The decoder answers a command for its word. -/
theorem decode_encode (i : Instr) : decode (encode i) = .ok i := by
  obtain ⟨hop, hrsv, himm⟩ := Laws.EncodedFields.of_fields i
  rw [decode_eq_ok_iff_fields, hop, hrsv, himm, instrOfOp_eq_some_iff]
  exact ⟨⟨rfl, fun b hb => by simp [hb]⟩, rfl, fun hnone => by simp [hnone]⟩

/-- A word the decoder answers a command for is that command's word. -/
theorem encode_of_decode {w : Word} {i : Instr} (h : decode w = .ok i) : encode i = w := by
  obtain ⟨hname, hrsv, hnone⟩ := (decode_eq_ok_iff_fields w i).1 h
  obtain ⟨hop, hsome⟩ := (instrOfOp_eq_some_iff _ _ _).1 hname
  have himm : i.operand.getD 0 = immField w := by
    cases hi : i.operand with
    | none => exact (hnone hi).symm
    | some b => exact hsome b hi
  calc encode i = opField w ++ rsvField w ++ immField w := by rw [encode, hop, himm, hrsv]; rfl
    _ = w := append_fields w

end Sys2Proof
end

section
/-!
SUPPORT. What `raise` keeps against any unit (60_exceptions.md R202, R203), and REDUCE's effect on a legal digit count
(42_hotp_pipeline.md R158).
-/

namespace Sys2Proof.Machine

variable (k : ErrKind) (u : UnitId) (s : State)

@[simp] theorem raise_cfg : (raise k u s).cfg = s.cfg := by cases u <;> rfl
@[simp] theorem raise_ctrLo : (raise k u s).ctrLo = s.ctrLo := by cases u <;> rfl
@[simp] theorem raise_ctrHi : (raise k u s).ctrHi = s.ctrHi := by cases u <;> rfl
@[simp] theorem raise_host : (raise k u s).host = s.host := by cases u <;> rfl
@[simp] theorem raise_schedule : (raise k u s).schedule = s.schedule := by cases u <;> rfl
@[simp] theorem raise_err : (raise k u s).err = recordError k s.err := by cases u <;> rfl
@[simp] theorem raise_pipe_reqSeq : (raise k u s).pipe.reqSeq = s.pipe.reqSeq := by cases u <;> rfl

/-- On a legal digit count REDUCE changes the pipeline only. -/
theorem reduceCode_of_legal (h : legalDigits s.cfg.digits = true) :
    reduceCode s = { s with pipe := (reduceCode s).pipe } := by
  simp [reduceCode, h]

@[simp] theorem reduceCode_pipe_reqSeq : (reduceCode s).pipe.reqSeq = s.pipe.reqSeq := by
  unfold reduceCode
  split <;> rfl

end Sys2Proof.Machine
end

section
/-!
SUPPORT. All a command can do: nothing, one error against its own unit, the two control commands' effects, or an update
of its own unit's elements, with the conditions under which each unit takes it (R112 to R114, R132 to R134, R153, R154,
R157, R158). Frames and invariants of commands are case splits over these.
-/

namespace Sys2Proof.Machine

/-- The unit whose errors a command raises (00_scope.md R8). -/
def unitOf : Instr → UnitId
  | .nop | .eclr | .srst => .noUnit
  | .encInit | .encByte _ | .encFinal => .enc
  | .decInit | .decChar _ | .decFinal => .dec
  | .pipeInit | .hmacReq | .trunc | .reduce => .pipe

/-- How a command that the encoder takes changes it. -/
inductive EncoderUpdate (e : Encoder) : Instr → Encoder → Prop
  | init : EncoderUpdate e .encInit emptyEncoder
  | byte (b : Byte) (hst : e.st = .opened) (hroom : e.inCount.toNat ≠ Config.encCap) :
      EncoderUpdate e (.encByte b) (appendByte b e)
  | final (hst : e.st = .opened) :
      EncoderUpdate e .encFinal { e with buf := e.buf ++ finalSymbols e, acc := 0, nb := 0, st := .done }

/-- How a command that the decoder takes changes it, with CFG.POLICY at `pol`. -/
inductive DecoderUpdate (pol : Policy) (d : Decoder) : Instr → Decoder → Prop
  | init : DecoderUpdate pol d .decInit (emptyDecoder pol)
  | symbol (c : Byte) (v : BitVec 5) (hclass : classify c = .symbol v) (hst : d.st = .opened)
      (hroom : ¬ (completesByte d = true ∧ d.buf.length = Config.decCap)) :
      DecoderUpdate pol d (.decChar c) (appendSymbol v d)
  | pad (c : Byte) (hclass : classify c = .pad) (hst : d.st = .opened ∨ d.st = .pad) (hpol : d.pol = .strict) :
      DecoderUpdate pol d (.decChar c) { d with st := .pad }
  | final (hst : d.st = .opened ∨ d.st = .pad) :
      DecoderUpdate pol d .decFinal { d with acc := 0, nb := 0, st := .done }

/-- How a command that the pipeline takes changes it in state `s`. -/
inductive PipelineUpdate (s : State) : Instr → Pipeline → Prop
  | init : PipelineUpdate s .pipeInit (emptyPipeline s.pipe.reqSeq)
  | issued (alg : HashAlg) (hst : s.pipe.st ≠ .wait) (hkey : s.dec.st = .done)
      (halg : algOfBits s.cfg.alg = some alg) : PipelineUpdate s .hmacReq (issueRequest alg s).pipe
  | truncated (hst : s.pipe.st = .tagged) : PipelineUpdate s .trunc (truncateTag s).pipe
  | reduced (hst : s.pipe.st = .truncated ∨ s.pipe.st = .done) (hdigits : legalDigits s.cfg.digits = true) :
      PipelineUpdate s .reduce (reduceCode s).pipe

/-- What a command can make of the state `s`. -/
inductive CommandEffect (s : State) : Instr → State → Prop
  | unchanged (i : Instr) : CommandEffect s i s
  | raised (i : Instr) (k : ErrKind) : CommandEffect s i (raise k (unitOf i) s)
  | errorsCleared : CommandEffect s .eclr (clearErrors s)
  | softReset : CommandEffect s .srst (softReset s)
  | encoder {i : Instr} {e : Encoder} (h : EncoderUpdate s.enc i e) : CommandEffect s i { s with enc := e }
  | decoder {i : Instr} {d : Decoder} (h : DecoderUpdate s.cfg.policy s.dec i d) : CommandEffect s i { s with dec := d }
  | pipeline {i : Instr} {p : Pipeline} (h : PipelineUpdate s i p) : CommandEffect s i { s with pipe := p }

theorem encByteWith_effect (b : Byte) (s : State) :
    CommandEffect s (.encByte b) (encByteWith Config.encCap b s) := by
  unfold encByteWith
  split
  · exact .unchanged _
  · exact .raised _ _
  · next hst =>
    split_ifs with hroom
    · exact .raised _ _
    · exact .encoder (.byte b hst hroom)

theorem execEncFinal_effect (s : State) : ∃ t, execEncFinal s = .next t ∧ CommandEffect s .encFinal t := by
  unfold execEncFinal
  split
  · exact ⟨_, rfl, .unchanged _⟩
  · exact ⟨_, rfl, .raised _ _⟩
  · next hst => exact ⟨_, rfl, .encoder (.final hst)⟩

theorem takeSymbol_effect (c : Byte) (v : BitVec 5) (s : State) (hclass : classify c = .symbol v)
    (hst : s.dec.st = .opened) : CommandEffect s (.decChar c) (takeSymbol Config.decCap v s) := by
  unfold takeSymbol
  split_ifs with hroom
  · exact .raised _ _
  · exact .decoder (.symbol c v hclass hst hroom)

theorem takeClass_effect (c : Byte) (s : State) (hst : s.dec.st = .opened ∨ s.dec.st = .pad) :
    CommandEffect s (.decChar c) (takeClass Config.decCap (classify c) s) := by
  unfold takeClass
  split
  · next v hclass =>
    split_ifs with hpad
    · exact .raised _ _
    · exact takeSymbol_effect c v s hclass (hst.resolve_right hpad)
  · next hclass =>
    split
    · next hpol => exact .decoder (.pad c hclass hst hpol)
    · exact .unchanged _
  · split
    · exact .raised _ _
    · exact .unchanged _

theorem decCharWith_effect (c : Byte) (s : State) :
    CommandEffect s (.decChar c) (decCharWith Config.decCap c s) := by
  unfold decCharWith
  split
  · exact .unchanged _
  · exact .raised _ _
  · next hst => exact takeClass_effect c s (.inl hst)
  · next hst => exact takeClass_effect c s (.inr hst)

theorem execDecFinal_effect (s : State) : ∃ t, execDecFinal s = .next t ∧ CommandEffect s .decFinal t := by
  unfold execDecFinal
  split
  · exact ⟨_, rfl, .unchanged _⟩
  · exact ⟨_, rfl, .raised _ _⟩
  · next hst => exact ⟨_, rfl, .decoder (.final (.inl hst))⟩
  · next hst => exact ⟨_, rfl, .decoder (.final (.inr hst))⟩

theorem requestHmac_effect (s : State) (hst : s.pipe.st ≠ .wait) : CommandEffect s .hmacReq (requestHmac s) := by
  unfold requestHmac
  split_ifs with hkey
  · exact .raised _ _
  · split
    · exact .raised _ _
    · next alg halg => exact .pipeline (.issued alg hst (not_not.1 hkey) halg)

theorem execHmacReq_effect (s : State) : ∃ t, execHmacReq s = .next t ∧ CommandEffect s .hmacReq t := by
  unfold execHmacReq
  split
  · exact ⟨_, rfl, .unchanged _⟩
  · exact ⟨_, rfl, .raised _ _⟩
  all_goals next hst => exact ⟨_, rfl, requestHmac_effect s (by simp [hst])⟩

theorem execTrunc_effect (s : State) : ∃ t, execTrunc s = .next t ∧ CommandEffect s .trunc t := by
  unfold execTrunc
  split
  · exact ⟨_, rfl, .unchanged _⟩
  · next hst => exact ⟨_, rfl, .pipeline (.truncated hst)⟩
  all_goals exact ⟨_, rfl, .raised _ _⟩

theorem reduceCode_effect (s : State) (hst : s.pipe.st = .truncated ∨ s.pipe.st = .done) :
    CommandEffect s .reduce (reduceCode s) := by
  by_cases hdigits : legalDigits s.cfg.digits = true
  · rw [reduceCode_of_legal s hdigits]
    exact .pipeline (.reduced hst hdigits)
  · rw [reduceCode, if_neg hdigits]
    exact .raised _ _

theorem execReduce_effect (s : State) : ∃ t, execReduce s = .next t ∧ CommandEffect s .reduce t := by
  unfold execReduce
  split
  · exact ⟨_, rfl, .unchanged _⟩
  · next hst => exact ⟨_, rfl, reduceCode_effect s (.inl hst)⟩
  · next hst => exact ⟨_, rfl, reduceCode_effect s (.inr hst)⟩
  all_goals exact ⟨_, rfl, .raised _ _⟩

/-- Every command answers a next state (60_exceptions.md R200), one of its effects. -/
theorem exec_effect (i : Instr) (s : State) : ∃ t, exec i s = .next t ∧ CommandEffect s i t := by
  cases i with
  | nop => exact ⟨_, rfl, .unchanged _⟩
  | eclr => exact ⟨_, rfl, .errorsCleared⟩
  | srst => exact ⟨_, rfl, .softReset⟩
  | encInit => exact ⟨_, rfl, .encoder .init⟩
  | encByte b => exact ⟨_, rfl, encByteWith_effect b s⟩
  | encFinal => exact execEncFinal_effect s
  | decInit => exact ⟨_, rfl, .decoder .init⟩
  | decChar c => exact ⟨_, rfl, decCharWith_effect c s⟩
  | decFinal => exact execDecFinal_effect s
  | pipeInit => exact ⟨_, rfl, .pipeline .init⟩
  | hmacReq => exact execHmacReq_effect s
  | trunc => exact execTrunc_effect s
  | reduce => exact execReduce_effect s

theorem effect_of_exec {i : Instr} {s t : State} (h : exec i s = .next t) : CommandEffect s i t := by
  obtain ⟨u, hu, heffect⟩ := exec_effect i s
  obtain rfl : u = t := by simpa [hu] using h
  exact heffect

end Sys2Proof.Machine
end

section
/-!
SUPPORT. All one step can do (20_memory.md R74): which agent moves, and what its move makes of the state. The host's
write of a command word to CMD is that command's effect (30_encoding.md R101); every other transaction leaves the units
and the error record.
-/

namespace Sys2Proof.Machine

/-- What a move can make of the state `s`, with the host's statement that it takes. `registers` is every host
transaction but a write to CMD: a write sets at most CFG or half of the counter, a read only what the host keeps. -/
inductive MoveEffect (s : State) : Move → State → Prop
  | command {i : Instr} {t : State} (hop : s.host.program[s.host.statement]? = some (.wr 0 (encode i)))
      (h : CommandEffect (advanceHost s) i t) : MoveEffect s .host t
  | illegalWord (w : Word) (hop : s.host.program[s.host.statement]? = some (.wr 0 w)) (r : DecodeReject)
      (hw : decode w = .error r) : MoveEffect s .host (raise .illegalCommand .noUnit (advanceHost s))
  | registers (cfg : Cfg) (lo hi : Word) (host : HostAgent) :
      MoveEffect s .host { s with cfg := cfg, ctrLo := lo, ctrHi := hi, host := host }
  | tagAccepted (m : Move) (hm : m ≠ .host ∧ m ≠ .reset) (q : Request) (hst : s.pipe.st = .wait)
      (hreq : s.pipe.req = some q) (tag : List Byte) (hlen : tag.length = tagLen q.alg) :
      MoveEffect s m (acceptTag tag s)
  | keyError (m : Move) (hm : m ≠ .host ∧ m ≠ .reset) (hst : s.pipe.st = .wait) :
      MoveEffect s m (raise .hmacKeyError .pipe s)
  | unchanged (m : Move) (hm : m ≠ .reset) : MoveEffect s m s
  | reset : MoveEffect s .reset (resetBlock s)

theorem executeWord_effect {w : Word} {s t : State} (hop : s.host.program[s.host.statement]? = some (.wr 0 w))
    (h : executeWord w (advanceHost s) = .next t) : MoveEffect s .host t := by
  unfold executeWord at h
  split at h
  · next i hw => exact .command (encode_of_decode hw ▸ hop) (effect_of_exec h)
  · next r hw =>
    cases h
    exact .illegalWord w hop r hw

theorem busWrite_effect {a : WAddr} {w : Word} {s t : State}
    (hop : s.host.program[s.host.statement]? = some (.wr a w)) (h : busWrite a w (advanceHost s) = .next t) :
    MoveEffect s .host t := by
  unfold busWrite at h
  split at h
  · next ha =>
    obtain rfl : a = 0 := BitVec.eq_of_toNat_eq ha
    exact executeWord_effect hop h
  all_goals
    cases h
    exact .registers _ _ _ _

theorem hostStep_effect {s t : State} (h : hostStep s = .next t) : MoveEffect s .host t := by
  unfold hostStep at h
  split at h
  · next o hop =>
    cases o with
    | wr a w => exact busWrite_effect hop h
    | rd a =>
      cases h
      exact .registers _ _ _ _
    | pollNe a mask value =>
      simp only [hostOp, pollRead_eq, Host.Outcome.next.injEq] at h
      exact h ▸ .registers _ _ _ _
    | pollEq a mask value =>
      simp only [hostOp, pollRead_eq, Host.Outcome.next.injEq] at h
      exact h ▸ .registers _ _ _ _
  · cases h
    exact .unchanged _ (by simp)

theorem generatorStep_effect (s : State) : MoveEffect s .generator (generatorStep s) := by
  unfold generatorStep
  split
  · next q hst hreq =>
    split
    · next tag _ => exact .tagAccepted _ (by simp) q hst hreq _ (by simp)
    · exact .keyError _ (by simp) hst
  · exact .unchanged _ (by simp)

/-- The tag field of a response holds a tag of any algorithm (20_memory.md R81). -/
theorem tagLen_le (alg : HashAlg) : tagLen alg ≤ 64 := by cases alg <;> decide

theorem respond_effect (r : Response) (s : State) : MoveEffect s (.response r) (respond r s) := by
  unfold respond
  split
  · next q hst hreq =>
    split_ifs
    · exact .keyError _ (by simp) hst
    · exact .tagAccepted _ (by simp) q hst hreq _ (by simp [tagLen_le])
    · exact .unchanged _ (by simp)
  · exact .unchanged _ (by simp)

theorem agentStep_effect {m : Move} {s t : State} (h : agentStep m s = .next t) : MoveEffect s m t := by
  cases m with
  | host => exact hostStep_effect h
  | generator =>
    cases h
    exact generatorStep_effect s
  | response r =>
    cases h
    exact respond_effect r s
  | reset =>
    cases h
    exact .reset

/-- The next move is the first one scheduled, the host's when none is, and it is taken off the schedule. -/
theorem nextMove_eq (s : State) :
    nextMove s = (s.schedule.head?.getD .host, { s with schedule := s.schedule.tail }) := by
  cases s with
  | mk cfg ctrLo ctrHi err enc dec pipe host schedule => cases schedule <;> rfl

/-- A step is the effect of the next move of the schedule. -/
theorem effect_of_step {s t : State} (h : step s = .next t) :
    ∃ m, s.schedule.head?.getD .host = m ∧ MoveEffect { s with schedule := s.schedule.tail } m t := by
  rw [step, nextMove_eq] at h
  exact ⟨_, rfl, agentStep_effect h⟩

theorem schedule_of_next_host {ms : List Move} (h : ms.head?.getD .host = .host) :
    ms.head? = some .host ∨ ms = [] := by
  cases ms with
  | nil => exact .inr rfl
  | cons m ms => exact .inl (congrArg some h)

theorem schedule_of_next_reset {ms : List Move} (h : ms.head?.getD .host = .reset) : ms.head? = some .reset := by
  cases ms with
  | nil => cases h
  | cons m ms => exact congrArg some h

end Sys2Proof.Machine
end

section
/-!
SUPPORT. Every effect keeps the invariant (10_state.md R49), unit by unit.
-/

namespace Sys2Proof.Machine

theorem noError_inv : noError.Inv := nofun

theorem EncoderUpdate.inv {e e' : Encoder} {i : Instr} (hu : EncoderUpdate e i e')
    (h : EncoderInv Config.encCap e) : EncoderInv Config.encCap e' := by
  cases hu with
  | init => exact emptyEncoder_inv _ .opened (.inl rfl)
  | byte b hst hroom => exact appendByte_inv _ le_rfl b e h hst hroom
  | final hst => exact finishEncode_inv _ e h hst

/-- DEC.CHAR's padding under STRICT (41_base32_decoder.md R133). -/
theorem padDecoder_inv (cap : Nat) (d : Decoder) (h : DecoderInv cap d) (hst : d.st = .opened ∨ d.st = .pad)
    (hpol : d.pol = .strict) : DecoderInv cap { d with st := .pad } where
  acc_lt := h.acc_lt
  len_le := h.len_le
  at_stream _ := h.at_stream hst
  at_done := nofun
  at_error := nofun
  pad_strict _ := hpol

theorem DecoderUpdate.inv {s : State} {d : Decoder} {i : Instr} (hu : DecoderUpdate s.cfg.policy s.dec i d)
    (h : s.Inv) : DecoderInv Config.decCap d := by
  cases hu with
  | init => exact emptyDecoder_inv _ _ .opened (.inl rfl)
  | symbol c v _ hst hroom => exact appendSymbol_inv _ v s.dec h.dec hst hroom
  | pad c _ hst hpol => exact padDecoder_inv _ s.dec h.dec hst hpol
  | final hst => exact (finishDecode_inv s h).dec

theorem PipelineUpdate.inv {s : State} {p : Pipeline} {i : Instr} (hu : PipelineUpdate s i p) (h : s.Inv) :
    PipelineInv Config.decCap p := by
  cases hu with
  | init => exact emptyPipeline_inv _ _ .idle (.inl rfl)
  | issued alg _ _ _ => exact (issueRequest_inv alg s h).pipe
  | truncated hst => exact (truncateTag_inv s h hst).pipe
  | reduced hst _ => exact (reduceCode_inv s h hst).pipe

/-- SRST's effect is the invariant's base case: it holds after it from every state (43_control.md R182). -/
theorem softReset_inv (s : State) : (softReset s).Inv where
  err := noError_inv
  enc := emptyEncoder_inv _ .opened (.inl rfl)
  dec := emptyDecoder_inv _ _ .opened (.inl rfl)
  pipe := emptyPipeline_inv _ _ .idle (.inl rfl)

theorem CommandEffect.inv {s t : State} {i : Instr} (he : CommandEffect s i t) (h : s.Inv) : t.Inv := by
  cases he with
  | unchanged => exact h
  | raised _ k => exact raise_inv k _ s h
  | errorsCleared => exact ⟨noError_inv, h.enc, h.dec, h.pipe⟩
  | softReset => exact softReset_inv s
  | encoder hu => exact ⟨h.err, hu.inv h.enc, h.dec, h.pipe⟩
  | decoder hu => exact ⟨h.err, h.enc, hu.inv h, h.pipe⟩
  | pipeline hu => exact ⟨h.err, h.enc, h.dec, hu.inv h⟩

theorem advanceHost_inv {s : State} (h : s.Inv) : (advanceHost s).Inv := h.congr rfl rfl rfl rfl

theorem MoveEffect.inv {s t : State} {m : Move} (he : MoveEffect s m t) (h : s.Inv) : t.Inv := by
  cases he with
  | command _ hc => exact hc.inv (advanceHost_inv h)
  | illegalWord => exact raise_inv _ _ _ (advanceHost_inv h)
  | registers => exact h.congr rfl rfl rfl rfl
  | tagAccepted _ _ q hst _ tag hlen => exact acceptTag_inv tag q.alg hlen s h hst
  | keyError => exact raise_inv _ _ s h
  | unchanged => exact h
  | reset => exact softReset_inv _

/-- Settles O60: the next move's effect keeps the invariant, which does not speak of the schedule. -/
theorem stepKeepsTheInvariant : Obligations.StepKeepsTheInvariant := by
  intro s t h hstep
  obtain ⟨m, -, he⟩ := effect_of_step hstep
  exact he.inv (h.congr rfl rfl rfl rfl)

/-- Settles O59: the state after reset is what SRST makes of it. -/
theorem resetSatisfiesTheInvariant : Obligations.ResetSatisfiesTheInvariant :=
  softReset_inv State.reset

end Sys2Proof.Machine
end

section
/-!
SUPPORT. What the effects of commands and moves leave as it is: CFG, the counter and the outside agents (10_state.md
R23, R27), the error record (R28), REQ_SEQ (R40), and the registers a pipeline command does not show in (R38, R205).
-/

namespace Sys2Proof.Machine

/-- Settles O42: every effect of a command is an update of the error record and the units. -/
theorem commandsNeverWriteTheConfiguration : Obligations.CommandsNeverWriteTheConfiguration := by
  intro i s t h
  cases effect_of_exec h with
  | raised => simp
  | unchanged | errorsCleared | softReset | encoder | decoder | pipeline => exact ⟨rfl, rfl, rfl, rfl, rfl⟩

/-- A command leaves the error record, records one more error, or is ECLR or SRST and clears it. -/
theorem CommandEffect.err {s t : State} {i : Instr} (he : CommandEffect s i t) :
    t.err = s.err ∨ (∃ k, t.err = recordError k s.err) ∨ (i = .eclr ∨ i = .srst) ∧ t.err = noError := by
  cases he with
  | raised _ k => exact .inr (.inl ⟨k, raise_err _ _ _⟩)
  | errorsCleared => exact .inr (.inr ⟨.inl rfl, rfl⟩)
  | softReset => exact .inr (.inr ⟨.inr rfl, rfl⟩)
  | unchanged | encoder | decoder | pipeline => exact .inl rfl

/-- A move leaves the error record, records one more error, or clears it: as the reset move, or as the host's write of
the word of ECLR or SRST to CMD. -/
theorem MoveEffect.err {s t : State} {m : Move} (he : MoveEffect s m t) :
    t.err = s.err ∨ (∃ k, t.err = recordError k s.err) ∨ t.err = noError ∧
      (m = .reset ∨ m = .host ∧
        (s.host.program[s.host.statement]? = some (.wr 0 (encode .eclr)) ∨
          s.host.program[s.host.statement]? = some (.wr 0 (encode .srst)))) := by
  cases he with
  | command hop hc =>
    obtain hkept | hraised | ⟨rfl | rfl, hcleared⟩ := hc.err
    · exact .inl hkept
    · exact .inr (.inl hraised)
    · exact .inr (.inr ⟨hcleared, .inr ⟨rfl, .inl hop⟩⟩)
    · exact .inr (.inr ⟨hcleared, .inr ⟨rfl, .inr hop⟩⟩)
  | illegalWord => exact .inr (.inl ⟨_, rfl⟩)
  | keyError => exact .inr (.inl ⟨_, rfl⟩)
  | reset => exact .inr (.inr ⟨rfl, .inl rfl⟩)
  | registers | tagAccepted | unchanged => exact .inl rfl

/-- Settles O10: by the effects of the command and of the next move. -/
theorem errorRecordChangesOnlyByRaiseOrClear : Obligations.ErrorRecordChangesOnlyByRaiseOrClear := by
  refine ⟨fun i s t h => (effect_of_exec h).err, fun s t h => ?_⟩
  obtain ⟨m, hm, he⟩ := effect_of_step h
  obtain hkept | hraised | ⟨hcleared, rfl | ⟨rfl, hword⟩⟩ := he.err
  · exact .inl hkept
  · exact .inr (.inl hraised)
  · exact .inr (.inr ⟨hcleared, .inl (schedule_of_next_reset hm)⟩)
  · exact .inr (.inr ⟨hcleared, .inr ⟨schedule_of_next_host hm, hword⟩⟩)

/-- A command leaves REQ_SEQ, or is an accepted HMAC.REQ and adds one. -/
theorem CommandEffect.reqSeq {s t : State} {i : Instr} (he : CommandEffect s i t) :
    t.pipe.reqSeq = s.pipe.reqSeq ∨
      i = .hmacReq ∧ t.pipe.st = .wait ∧ t.pipe.reqSeq = s.pipe.reqSeq + 1 := by
  cases he with
  | raised => exact .inl (raise_pipe_reqSeq _ _ _)
  | pipeline hu =>
    cases hu with
    | issued => exact .inr ⟨rfl, rfl, rfl⟩
    | reduced => exact .inl (reduceCode_pipe_reqSeq s)
    | init | truncated => exact .inl rfl
  | unchanged | errorsCleared | softReset | encoder | decoder => exact .inl rfl

/-- A move leaves REQ_SEQ, adds one and leaves the pipeline in WAIT, or is reset and makes it 0. -/
theorem MoveEffect.reqSeq {s t : State} {m : Move} (he : MoveEffect s m t) :
    t.pipe.reqSeq = s.pipe.reqSeq ∨ (t.pipe.reqSeq = s.pipe.reqSeq + 1 ∧ t.pipe.st = .wait) ∨
      t.pipe.reqSeq = 0 ∧ m = .reset := by
  cases he with
  | command _ hc =>
    obtain hkept | ⟨-, hst, hseq⟩ := hc.reqSeq
    · exact .inl hkept
    · exact .inr (.inl ⟨hseq, hst⟩)
  | reset => exact .inr (.inr ⟨rfl, rfl⟩)
  | illegalWord | registers | tagAccepted | keyError | unchanged => exact .inl rfl

/-- Settles O37: by the effects of the command and of the next move. -/
theorem requestNumberChangesOnlyOnIssue : Obligations.RequestNumberChangesOnlyOnIssue := by
  refine ⟨fun i s t h hne => (effect_of_exec h).reqSeq.resolve_left hne, fun s t h hne => ?_⟩
  obtain ⟨m, hm, he⟩ := effect_of_step h
  obtain hissued | ⟨hzero, rfl⟩ := he.reqSeq.resolve_left hne
  · exact .inl hissued
  · exact .inr ⟨hzero, schedule_of_next_reset hm⟩

/-- The pipeline and the error record show in STATUS, words 9 to 16 and the TAG_BUF window only (20_memory.md R64). -/
theorem busRead_congr_of_not_pipeline {s t : State} (hcfg : t.cfg = s.cfg) (hlo : t.ctrLo = s.ctrLo)
    (hhi : t.ctrHi = s.ctrHi) (henc : t.enc = s.enc) (hdec : t.dec = s.dec) {a : WAddr} (hstatus : a.toNat ≠ 1)
    (hregs : ¬ (9 ≤ a.toNat ∧ a.toNat ≤ 16)) (hwindow : ¬ 112 ≤ a.toNat) : busRead a t = busRead a s := by
  simp only [busRead, hcfg, hlo, hhi, henc, hdec]
  split
  case h_2 hone => exact absurd hone hstatus
  case h_10 | h_11 | h_12 | h_13 | h_14 | h_15 | h_16 | h_17 => omega
  case h_19 => simp only [show a.toNat < 112 by omega, if_true]
  all_goals rfl

/-- A pipeline command's effect on what is not the pipeline: nothing, but for the record of an error that leaves the
pipeline in ERROR. -/
theorem CommandEffect.pipeline_frame {s t : State} {i : Instr} (he : CommandEffect s i t) (hi : unitOf i = .pipe) :
    t.enc = s.enc ∧ t.dec = s.dec ∧ t.cfg = s.cfg ∧ t.ctrLo = s.ctrLo ∧ t.ctrHi = s.ctrHi ∧
      (t.pipe.st ≠ .error → t.err = s.err) := by
  cases he with
  | raised => simp [hi]
  | errorsCleared | softReset => cases hi
  | encoder hu => cases hu <;> cases hi
  | decoder hu => cases hu <;> cases hi
  | unchanged | pipeline => exact ⟨rfl, rfl, rfl, rfl, rfl, fun _ => rfl⟩

/-- Settles O57: the frame of a pipeline command, and the words that show none of what it changes. -/
theorem pipelineCommandsLeaveTheOtherUnits : Obligations.PipelineCommandsLeaveTheOtherUnits := by
  intro s t i hi h
  have hunit : unitOf i = .pipe := by rcases hi with rfl | rfl | rfl | rfl <;> rfl
  obtain ⟨henc, hdec, hcfg, hlo, hhi, herr⟩ := (effect_of_exec h).pipeline_frame hunit
  exact ⟨henc, hdec, hcfg, hlo, hhi, herr, fun a => busRead_congr_of_not_pipeline hcfg hlo hhi henc hdec⟩

end Sys2Proof.Machine
end

section
/-!
SUPPORT. STATUS as the host reads it (10_state.md R29), and the word that `withFetchWord` puts in place.
-/

namespace Sys2Proof.Machine

/-- STATUS as a number, each field at its place. -/
theorem statusWord_toNat (s : State) :
    (statusWord s).toNat = s.err.mult.toNat * 2 ^ 16 + (errCode s.err).toNat * 2 ^ 12 +
      (pipeStCode s.pipe.st).toNat * 2 ^ 8 + (decStCode s.dec.st).toNat * 2 ^ 4 + (encStCode s.enc.st).toNat := by
  simp only [statusWord, BitVec.toNat_append, shiftLeft_or_eq_add _ _ 4 (BitVec.isLt _), BitVec.toNat_ofBool,
    BitVec.toNat_ofNat, Nat.zero_mod, Nat.zero_shiftLeft, Nat.zero_or]
  omega

/-- A piece of a word is the field whose number stands at its place. -/
theorem extractLsb'_eq_of_toNat {n : Nat} (w : Word) (start : Nat) (x : BitVec n)
    (h : w.toNat / 2 ^ start % 2 ^ n = x.toNat) : w.extractLsb' start n = x := by
  apply BitVec.eq_of_toNat_eq
  rw [BitVec.extractLsb'_toNat, Nat.shiftRight_eq_div_pow, h]

/-- A bit of a word is the flag whose number stands at its place. -/
theorem getLsbD_eq_of_toNat (w : Word) (i : Nat) (b : Bool) (h : w.toNat / 2 ^ i % 2 = b.toNat) : w.getLsbD i = b := by
  rw [BitVec.getLsbD, Nat.testBit_eq_decide_div_mod_eq, h]
  cases b <;> rfl

/-- Settles O46: STATUS as a number, divided at the fields' places. -/
theorem statusShowsTheStates : Obligations.StatusShowsTheStates := by
  intro s
  have hstatus := statusWord_toNat s
  have herr := (errCode s.err).isLt
  have hpipe := (pipeStCode s.pipe.st).isLt
  have hdec := (decStCode s.dec.st).isLt
  have henc := (encStCode s.enc.st).isLt
  have hmult := s.err.mult.toNat_lt
  rw [show busRead 1 s = statusWord s from rfl]
  exact ⟨extractLsb'_eq_of_toNat _ _ _ (by omega), extractLsb'_eq_of_toNat _ _ _ (by omega),
    extractLsb'_eq_of_toNat _ _ _ (by omega), extractLsb'_eq_of_toNat _ _ _ (by omega),
    getLsbD_eq_of_toNat _ _ _ (by omega), extractLsb'_eq_of_toNat _ _ _ (show _ = 0 by omega),
    rfl, rfl, rfl, rfl, rfl⟩

/-- The inserted statement is the host's next one. -/
theorem insertNext_next (o : HostOp) (h : HostAgent) :
    (insertNext o h).program[(insertNext o h).statement]? = some o := by
  simp [insertNext]

/-- After the inserted statement the host's program goes on as before. -/
theorem insertNext_drop (o : HostOp) (h : HostAgent) :
    (insertNext o h).program.drop ((insertNext o h).statement + 1) = h.program.drop h.statement := by
  simp only [insertNext, List.drop_length_add_append, List.drop_succ_cons, List.drop_zero]

/-- The host's write of a command's word runs that command after the host has gone on (30_encoding.md R101). -/
theorem hostStep_of_command {s : State} {i : Instr}
    (hop : s.host.program[s.host.statement]? = some (.wr cmdAddr (encode i))) :
    hostStep s = exec i (advanceHost s) := by
  simp [hostStep, hop, hostOp, busWrite, cmdAddr, executeWord, decode_encode]

/-- Settles O6: the host moves next and its next statement writes the command's word. -/
theorem placedWordRunsNext : Obligations.PlacedWordRunsNext := by
  intro s i
  have hword : BitVec.ofNat 32 ((encode i).toNat % 2 ^ 32) = encode i := by
    rw [Nat.mod_eq_of_lt (encode i).isLt, BitVec.ofNat_toNat, BitVec.setWidth_eq]
  refine ⟨_, _, insertNext_drop (.wr cmdAddr (encode i)) s.host, ?_⟩
  rw [State.withFetchWord, hword]
  exact hostStep_of_command (insertNext_next _ _)

end Sys2Proof.Machine
end

section
/-!
SUPPORT. The step of a scheduled move and of the host's next statement (20_memory.md R61, R62, R74), and what the
response port accepts (R81).
-/

namespace Sys2Proof.Machine

/-- The first move scheduled is the one that happens. -/
theorem step_of_schedule {s : State} {m : Move} {rest : List Move} (h : s.schedule = m :: rest) :
    step s = agentStep m { s with schedule := rest } := by
  simp [step, nextMove_eq, h]

/-- The host moves when it is scheduled, and when nothing is. -/
theorem step_of_host_next {s : State} {rest : List Move}
    (h : s.schedule = .host :: rest ∨ s.schedule = [] ∧ rest = []) :
    step s = hostStep { s with schedule := rest } := by
  obtain h | ⟨h, rfl⟩ := h
  · exact step_of_schedule h
  · simp [step, nextMove_eq, h, agentStep]

/-- The host's read keeps the value and takes the host to its next statement (30_encoding.md R98). -/
theorem hostStep_of_read {s : State} {a : WAddr} (hop : s.host.program[s.host.statement]? = some (.rd a)) :
    hostStep s = .next (keepRead (busRead a s) (advanceHost s)) := by
  simp [hostStep, hop, hostOp]

/-- Settles O5: the host moves next, and the word it writes is the command's. -/
theorem stepRunsTheDecodedCommand : Obligations.StepRunsTheDecodedCommand := by
  intro s rest w i hnext hop _ hdecode
  obtain rfl := encode_of_decode hdecode
  rw [step_of_host_next hnext]
  exact hostStep_of_command hop

/-- Settles O50: the host moves next, and a read changes the host only. -/
theorem readsChangeNoBlockState : Obligations.ReadsChangeNoBlockState := by
  intro s rest a hnext hop
  rw [step_of_host_next hnext]
  exact hostStep_of_read hop

/-- A tag with the pending request's number is accepted, to the length of the request's algorithm. -/
theorem respond_of_tag {s : State} {p : Response} {r : Request} (hst : s.pipe.st = .wait)
    (hreq : s.pipe.req = some r) (hseq : p.seq = r.seq) (htag : p.keyError = false) :
    respond p s = acceptTag (p.tag.toList.take (tagLen r.alg)) s := by
  simp [respond, hst, hreq, hseq, htag]

/-- A key error with the pending request's number is raised. -/
theorem respond_of_keyError {s : State} {p : Response} {r : Request} (hst : s.pipe.st = .wait)
    (hreq : s.pipe.req = some r) (hseq : p.seq = r.seq) (herr : p.keyError = true) :
    respond p s = raise .hmacKeyError .pipe s := by
  simp [respond, hst, hreq, hseq, herr]

/-- A response is dropped when no request with its number is pending (42_hotp_pipeline.md R156). -/
theorem respond_of_not_matching {s : State} {p : Response}
    (h : s.pipe.st ≠ .wait ∨ ∀ r, s.pipe.req = some r → p.seq ≠ r.seq) : respond p s = s := by
  unfold respond
  split
  · next r hst hreq => exact if_neg (h.resolve_left (absurd hst) r hreq)
  · rfl

/-- Settles O32: the step is the response's, which is accepted or dropped. -/
theorem onlyTheMatchingResponseIsAccepted : Obligations.OnlyTheMatchingResponseIsAccepted := by
  intro s rest p hsched
  have hstep : step s = .next (respond p { s with schedule := rest }) := step_of_schedule hsched
  rw [hstep]
  exact ⟨fun r hst hreq hseq htag => congrArg _ (respond_of_tag hst hreq hseq htag),
    fun r hst hreq hseq herr => congrArg _ (respond_of_keyError hst hreq hseq herr),
    fun hno => congrArg _ (respond_of_not_matching hno)⟩

end Sys2Proof.Machine
end

section
/-!
SUPPORT. The HMAC request port (20_memory.md R80): what it presents, and that no step changes it while a request stays
pending.
-/

namespace Sys2Proof.Machine

/-- hreq_valid is PIPE_ST = WAIT. -/
@[simp] theorem requestPort_valid (s : State) : (requestPort s).valid = true ↔ s.pipe.st = .wait := by
  simp [requestPort]

/-- The port shows nothing but the pipeline. -/
theorem requestPort_congr {s t : State} (h : t.pipe = s.pipe) : requestPort t = requestPort s := by
  simp only [requestPort, h]

/-- A command that finds the pipeline in WAIT and leaves it there does not change it: HMAC.REQ, TRUNC and REDUCE are no
updates of a waiting pipeline. -/
theorem CommandEffect.pipe_of_wait {s t : State} {i : Instr} (he : CommandEffect s i t) (hs : s.pipe.st = .wait)
    (ht : t.pipe.st = .wait) : t.pipe = s.pipe := by
  cases he with
  | raised _ k =>
    cases i with
    | pipeInit | hmacReq | trunc | reduce => cases ht
    | _ => rfl
  | softReset => cases ht
  | pipeline hu =>
    cases hu with
    | init => cases ht
    | issued _ hst => exact absurd hs hst
    | truncated hst => cases hs.symm.trans hst
    | reduced hst => rcases hst with hst | hst <;> cases hs.symm.trans hst
  | unchanged | errorsCleared | encoder | decoder => rfl

/-- A move that finds the pipeline in WAIT and leaves it there does not change it: every answer and reset ends WAIT. -/
theorem MoveEffect.pipe_of_wait {s t : State} {m : Move} (he : MoveEffect s m t) (hs : s.pipe.st = .wait)
    (ht : t.pipe.st = .wait) : t.pipe = s.pipe := by
  cases he with
  | command _ hc => exact hc.pipe_of_wait hs ht
  | tagAccepted | keyError | reset => cases ht
  | illegalWord | registers | unchanged => rfl

/-- Settles O38: the pipeline, which is all the port shows, is the same. -/
theorem pendingRequestIsConstant : Obligations.PendingRequestIsConstant := by
  intro s t hstep hs ht
  rw [requestPort_valid] at hs ht
  obtain ⟨m, -, he⟩ := effect_of_step hstep
  exact requestPort_congr (he.pipe_of_wait hs ht)

/-- The 64 lanes of a buffer that fits them are its bytes, then zeros. -/
theorem ofFn_lane_toList (buf : List Byte) (h : buf.length ≤ 64) :
    (Vector.ofFn fun i : Fin 64 => lane buf i.val).toList = buf ++ List.replicate (64 - buf.length) 0 := by
  refine List.ext_getElem (by simp; omega) fun i hi _ => ?_
  by_cases hlt : i < buf.length
  · simp [lane, hlt]
  · simp [lane, List.getElem_append_right, not_lt.1 hlt]

/-- Settles O39: signal by signal, with no request and with one. -/
theorem requestPortPresentsTheRequest : Obligations.RequestPortPresentsTheRequest := by
  refine fun s => ⟨requestPort_valid s, fun hnone => ?_, fun r hreq hlen => ?_⟩
  · simp [requestPort, hnone]
  · have hkey : (BitVec.ofNat 7 r.key.length).toNat = r.key.length := Nat.mod_eq_of_lt (by omega)
    simp only [requestPort, hreq, hkey, ofFn_lane_toList r.key hlen, and_self]

end Sys2Proof.Machine
end

section
/-!
SUPPORT. The host register space (20_memory.md R64 to R72): the writes that have an effect, the packed registers as
sums of their fields, and the lanes of the windows.
-/

namespace Sys2Proof.Machine

/-- A write to any word but CMD, CFG, CTR_LO and CTR_HI has no effect (R65, R66). -/
theorem busWrite_of_not_writable {a : WAddr} (h : a.toNat = 1 ∨ 5 ≤ a.toNat) (data : Word) (s : State) :
    busWrite a data s = .next s := by
  unfold busWrite
  split
  case h_5 => rfl
  all_goals omega

/-- Past the named registers stand the reserved words, then the three windows (R64). -/
theorem busRead_of_unnamed {a : WAddr} (h : 18 ≤ a.toNat) (s : State) :
    busRead a s =
      if a.toNat < 64 then 0
      else if a.toNat < 96 then windowWord s.enc.buf (a.toNat - 64)
      else if a.toNat < 112 then windowWord s.dec.buf (a.toNat - 96)
      else windowWord s.pipe.tagBuf (a.toNat - 112) := by
  unfold busRead
  split
  case h_19 => rfl
  all_goals omega

/-- Settles O45: the writes and the reserved words by their place in the register map. -/
theorem otherWritesHaveNoEffect : Obligations.OtherWritesHaveNoEffect := by
  refine fun a data s => ⟨fun h => busWrite_of_not_writable h data s, fun h => ?_, rfl⟩
  rw [busRead_of_unnamed h.1, if_pos (by omega)]

/-- Fields side by side are a sum, the right one below. -/
theorem toNat_append_eq_add {m n : Nat} (x : BitVec m) (y : BitVec n) :
    (x ++ y).toNat = x.toNat * 2 ^ n + y.toNat := by
  rw [BitVec.toNat_append, shiftLeft_or_eq_add _ _ _ y.isLt]

/-- A word of a window as a number, its first lane lowest. -/
theorem windowWord_toNat (buf : List Byte) (k : Nat) :
    (windowWord buf k).toNat = (lane buf (4 * k)).toNat + (lane buf (4 * k + 1)).toNat * 2 ^ 8 +
      (lane buf (4 * k + 2)).toNat * 2 ^ 16 + (lane buf (4 * k + 3)).toNat * 2 ^ 24 := by
  simp only [windowWord, toNat_append_eq_add]
  omega

/-- Byte lane j of word k is byte 4k + j (R70). -/
theorem windowWord_lane (buf : List Byte) (k j : Nat) (hj : j < 4) :
    (windowWord buf k).extractLsb' (8 * j) 8 = lane buf (4 * k + j) := by
  have h0 := (lane buf (4 * k)).isLt
  have h1 := (lane buf (4 * k + 1)).isLt
  have h2 := (lane buf (4 * k + 2)).isLt
  have h3 := (lane buf (4 * k + 3)).isLt
  apply extractLsb'_eq_of_toNat
  rw [windowWord_toNat]
  interval_cases j <;> simp only [Nat.add_zero, Nat.reduceMul, Nat.reducePow] <;> omega

/-- A word of a window shows byte i of its buffer where i mod 4 and i / 4 say (R70). -/
theorem windowWord_byte (buf : List Byte) (i : Nat) :
    (windowWord buf (i / 4)).extractLsb' (8 * (i % 4)) 8 = buf.getD i 0 := by
  rw [windowWord_lane buf (i / 4) (i % 4) (Nat.mod_lt _ (by decide)), Nat.div_add_mod]
  rfl

/-- Word k of the ENC_BUF window. -/
theorem busRead_encBuf (s : State) {k : Nat} (hk : k < 32) :
    busRead (BitVec.ofNat 7 (64 + k)) s = windowWord s.enc.buf k := by
  have ha : (BitVec.ofNat 7 (64 + k)).toNat = 64 + k := Nat.mod_eq_of_lt (by omega)
  rw [busRead_of_unnamed (by omega), ha, if_neg (by omega), if_pos (by omega), Nat.add_sub_cancel_left]

/-- Word k of the DEC_BUF window. -/
theorem busRead_decBuf (s : State) {k : Nat} (hk : k < 16) :
    busRead (BitVec.ofNat 7 (96 + k)) s = windowWord s.dec.buf k := by
  have ha : (BitVec.ofNat 7 (96 + k)).toNat = 96 + k := Nat.mod_eq_of_lt (by omega)
  rw [busRead_of_unnamed (by omega), ha, if_neg (by omega), if_neg (by omega), if_pos (by omega),
    Nat.add_sub_cancel_left]

/-- Word k of the TAG_BUF window. -/
theorem busRead_tagBuf (s : State) {k : Nat} (hk : k < 16) :
    busRead (BitVec.ofNat 7 (112 + k)) s = windowWord s.pipe.tagBuf k := by
  have ha : (BitVec.ofNat 7 (112 + k)).toNat = 112 + k := Nat.mod_eq_of_lt (by omega)
  rw [busRead_of_unnamed (by omega), ha, if_neg (by omega), if_neg (by omega), if_neg (by omega),
    Nat.add_sub_cancel_left]

/-- Settles O47: window by window. -/
theorem windowsShowTheBuffers : Obligations.WindowsShowTheBuffers := by
  refine fun s i => ⟨fun hi => ?_, fun hi => ?_, fun hi => ?_⟩
  · rw [busRead_encBuf s (by omega), windowWord_byte]
  · rw [busRead_decBuf s (by omega), windowWord_byte]
  · rw [busRead_tagBuf s (by omega), windowWord_byte]

/-- Register ENC_ACC as a number, each field at its place (R71). -/
theorem encAccWord_toNat (e : Encoder) :
    (encAccWord e).toNat = e.inCount.toNat * 2 ^ 16 + e.nb.toNat * 2 ^ 8 + e.acc.toNat := by
  simp only [encAccWord, toNat_append_eq_add, BitVec.toNat_ofNat, Nat.zero_mod]
  omega

/-- Register DEC_ACC as a number, each field at its place (R71). -/
theorem decAccWord_toNat (d : Decoder) :
    (decAccWord d).toNat = (policyBit d.pol).toNat * 2 ^ 16 + d.nb.toNat * 2 ^ 8 + d.acc.toNat := by
  simp only [decAccWord, toNat_append_eq_add, BitVec.toNat_ofBool, BitVec.toNat_ofNat, Nat.zero_mod]
  omega

/-- DEC_POL's bit is 1 exactly under STRIP. -/
theorem policyBit_toNat_mul (p : Policy) (n : Nat) :
    (policyBit p).toNat * n = if p = .strip then n else 0 := by
  cases p <;> simp [policyBit]

/-- A byte of CODE_STR as its registers show it. -/
theorem lane_toList {n : Nat} (v : Vector Byte n) (i : Nat) (h : i < n) : lane v.toList i = v[i] := by
  simp [lane, h]

/-- Settles O48: the four words as sums. -/
theorem packedRegistersShowTheirFields : Obligations.PackedRegistersShowTheirFields := by
  refine fun s => ⟨encAccWord_toNat s.enc, ?_, ?_, ?_⟩
  · rw [← policyBit_toNat_mul]
    exact decAccWord_toNat s.dec
  · rw [show busRead 13 s = windowWord s.pipe.codeStr.toList 0 from rfl, windowWord_toNat]
    simp only [lane_toList, Nat.mul_zero, Nat.zero_add, Nat.reduceLT]
  · rw [show busRead 14 s = windowWord s.pipe.codeStr.toList 1 from rfl, windowWord_toNat]
    simp only [lane_toList, Nat.mul_one, Nat.reduceAdd, Nat.reduceLT]

/-- CFG holds a policy as the bit that wrote it. -/
@[simp] theorem policyBit_policyOfBit (b : Bool) : policyBit (policyOfBit b) = b := by cases b <;> rfl

/-- CFG reads the word written to it, masked to its three fields (R67): bit by bit. -/
theorem cfgWord_cfgOfWord (data : Word) : cfgWord (cfgOfWord data) = data &&& 0x00000F31#32 := by
  refine BitVec.eq_of_getLsbD_eq fun i hi => ?_
  simp only [cfgWord, cfgOfWord, policyBit_policyOfBit, BitVec.getLsbD_append, BitVec.getLsbD_and,
    BitVec.getLsbD_extractLsb', BitVec.getLsbD_ofBool]
  interval_cases i <;> simp

/-- Settles O43: the write's next state, which CFG then reads. -/
theorem cfgWriteStoresItsFields : Obligations.CfgWriteStoresItsFields :=
  fun data _ => ⟨_, rfl, rfl, cfgWord_cfgOfWord data⟩

/-- Settles O44: each write is its own case of the register map, and so is each read. -/
theorem counterWritesChangeTheirHalf : Obligations.CounterWritesChangeTheirHalf :=
  fun _ _ => ⟨rfl, rfl, rfl, rfl⟩

/-- A length register shows a length that fits 7 bits. -/
theorem lengthWord_toNat (buf : List Byte) (h : buf.length < 128) : (lengthWord buf).toNat = buf.length := by
  simp [lengthWord]
  omega

/-- The encoder's buffer holds at most ENC_SYM_CAP symbols (10_state.md R49). -/
theorem EncoderInv.length_le {cap : Nat} {e : Encoder} (h : EncoderInv cap e) :
    e.buf.length ≤ Config.symCap cap := by
  have hcount := h.count_le
  unfold Config.symCap
  cases hst : e.st with
  | opened =>
    have hlen := (h.at_open hst).2
    omega
  | done =>
    have hlen := (h.at_done hst).2
    omega
  | error =>
    obtain ⟨-, hbuf, -⟩ := h.at_error hst
    simp [hbuf]

/-- The tag buffer holds a tag or nothing (10_state.md R49). -/
theorem PipelineInv.tag_length_le {cap : Nat} {p : Pipeline} (h : PipelineInv cap p) : p.tagBuf.length ≤ 64 := by
  by_cases hst : holdsTag p.st
  · obtain ⟨alg, hlen⟩ := h.tag_held hst
    exact hlen ▸ tagLen_le alg
  · simp [h.tag_empty hst]

/-- Settles O49: the lengths fit their registers, and zeros above a field do not change its number. -/
theorem dataRegistersShowTheirElements : Obligations.DataRegistersShowTheirElements := by
  intro s
  have hzeros {n : Nat} (hn : n ≤ 32) (x : BitVec n) : (x.setWidth 32).toNat = x.toNat :=
    BitVec.toNat_setWidth_of_le hn
  refine ⟨fun h => ⟨?_, ?_, ?_⟩, hzeros (by decide) _, hzeros (by decide) _, hzeros (by decide) _,
    hzeros (by decide) _, hzeros (by decide) _, rfl⟩
  · exact lengthWord_toNat _ (Nat.lt_of_le_of_lt h.enc.length_le (by decide))
  · exact lengthWord_toNat _ (Nat.lt_of_le_of_lt h.dec.len_le (by decide))
  · exact lengthWord_toNat _ (Nat.lt_of_le_of_lt h.pipe.tag_length_le (by decide))

end Sys2Proof.Machine
end

section
/-!
SUPPORT. The legal words (30_encoding.md R94) and the opcode map (R93) by way of the commands: a word is legal exactly if
it decodes, and the one row that accepts it is its command's.
-/

namespace Sys2Proof

/-- Settles O1: each direction is one of the decoder's laws. -/
theorem decodeAndEncodeAgree : Obligations.DecodeAndEncodeAgree :=
  fun _ i => ⟨fun h => ⟨i.wf_eq_true, encode_of_decode h⟩, fun ⟨_, h⟩ => h ▸ decode_encode i⟩

/-- Settles O4: each word is its command's. -/
theorem wordsOfTheOpcodeMapDecode : Obligations.WordsOfTheOpcodeMapDecode :=
  ⟨decode_encode .nop, decode_encode .srst, decode_encode (.encByte 0x66#8), decode_encode .encFinal,
    decode_encode (.decChar 0x5A#8), decode_encode .hmacReq, decode_encode .reduce⟩

theorem encode_injective : Function.Injective encode := fun i j h => by
  simpa [decode_encode] using congrArg decode h

/-! ### Legality -/

/-- The commands with an operand are the two whose OP R94 names. -/
theorem Instr.operand_eq_none_iff (i : Instr) : i.operand = none ↔ ¬ (i.opcode = 0x11#8 ∨ i.opcode = 0x21#8) := by
  cases i <;> simp [Instr.operand, Instr.opcode]

/-- The OP values that name a command are the thirteen of R93. -/
theorem exists_instrOfOp_iff (op imm : Byte) :
    (∃ i, instrOfOp op imm = some i) ↔
      op ∈ [0x00#8, 0x01#8, 0x02#8, 0x10#8, 0x11#8, 0x12#8, 0x20#8, 0x21#8, 0x22#8, 0x30#8, 0x31#8, 0x32#8, 0x33#8] := by
  constructor
  · rintro ⟨i, h⟩
    obtain ⟨rfl, -⟩ := (instrOfOp_eq_some_iff _ _ _).1 h
    cases i <;> simp [Instr.opcode]
  · simp only [List.mem_cons, List.not_mem_nil, or_false]
    rintro (rfl | rfl | rfl | rfl | rfl | rfl | rfl | rfl | rfl | rfl | rfl | rfl | rfl) <;> exact ⟨_, rfl⟩

/-- R94, with its list of OP values read through the decoder. -/
theorem legalWord_iff_fields (w : Word) :
    legalWord w = true ↔ (∃ i, instrOfOp (opField w) (immField w) = some i) ∧ rsvField w = 0 ∧
      (immField w = 0 ∨ opField w = 0x11#8 ∨ opField w = 0x21#8) := by
  rw [exists_instrOfOp_iff]
  simp only [legalWord, Bool.and_eq_true, Bool.or_eq_true, List.contains_iff_mem, beq_iff_eq, or_assoc, and_assoc]

/-- The legal words are those that decode to a command (R94, R101). -/
theorem legalWord_iff_decodes (w : Word) : legalWord w = true ↔ ∃ i, decode w = .ok i := by
  simp only [legalWord_iff_fields, decode_eq_ok_iff_fields, ← exists_and_right]
  refine exists_congr fun i => and_congr_right fun hname => and_congr_right fun _ => ?_
  obtain ⟨hop, -⟩ := (instrOfOp_eq_some_iff _ _ _).1 hname
  rw [i.operand_eq_none_iff, hop, or_iff_not_imp_right]

/-- The legal words are the commands' words (R93). -/
theorem legalWord_iff_encode (w : Word) : legalWord w = true ↔ ∃ i, encode i = w := by
  rw [legalWord_iff_decodes]
  exact exists_congr fun i => ⟨encode_of_decode, fun h => h ▸ decode_encode i⟩

/-- An illegal word is refused by the decoder. -/
theorem decode_of_not_legalWord {w : Word} (h : legalWord w = false) : ∃ r, decode w = .error r := by
  cases hw : decode w with
  | error r => exact ⟨r, rfl⟩
  | ok i => exact absurd ((legalWord_iff_decodes w).2 ⟨i, hw⟩) (by simp [h])

/-! ### How many commands there are -/

/-- Every byte, once. -/
def allBytes : List Byte := List.ofFn fun n : Fin (2 ^ 8) => BitVec.ofFin n

theorem mem_allBytes (b : Byte) : b ∈ allBytes := List.mem_ofFn.2 ⟨b.toFin, rfl⟩

theorem allBytes_nodup : allBytes.Nodup := List.nodup_ofFn.2 fun _ _ => BitVec.ofFin.inj

/-- The eleven commands without an operand (R92). -/
def plainCommands : List Instr :=
  [.nop, .eclr, .srst, .encInit, .encFinal, .decInit, .decFinal, .pipeInit, .hmacReq, .trunc, .reduce]

/-- Every command, once: the plain ones, and the other two with each operand. -/
def allCommands : List Instr := plainCommands ++ allBytes.map .encByte ++ allBytes.map .decChar

theorem mem_allCommands (i : Instr) : i ∈ allCommands := by
  cases i <;> simp [allCommands, plainCommands, mem_allBytes]

theorem allCommands_nodup : allCommands.Nodup := by
  have hplain : plainCommands.Nodup := by decide
  have hbyte : (allBytes.map Instr.encByte).Nodup := allBytes_nodup.map fun _ _ => Instr.encByte.inj
  have hchar : (allBytes.map Instr.decChar).Nodup := allBytes_nodup.map fun _ _ => Instr.decChar.inj
  refine (hplain.append hbyte ?_).append hchar ?_ <;> simp [List.Disjoint, plainCommands]

theorem allCommands_length : allCommands.length = 11 + 2 * 256 := by
  have hbytes : allBytes.length = 256 := List.length_ofFn
  simp [allCommands, plainCommands, hbytes]

/-- Settles O2: the legal words are the commands' words, one for each command. -/
theorem legalWordsAreTheDecodedOnes : Obligations.LegalWordsAreTheDecodedOnes := by
  refine ⟨fun w => (legalWord_iff_decodes w).symm, allCommands.map encode, allCommands_nodup.map encode_injective,
    by rw [List.length_map, allCommands_length], fun w => ?_⟩
  simp [legalWord_iff_encode, mem_allCommands]

/-! ### The rows of the opcode map -/

/-- A command's row of the opcode map (R93): OP and RSV are fixed, and IMM8 where there is no operand. -/
def Instr.row (i : Instr) : OpcodeRow where
  mnemonic := i.mnemonic
  pattern := i.opcode ++ 0#16 ++ 0#8
  mask := 0xFF#8 ++ 0xFFFF#16 ++ (if i.operand = none then 0xFF#8 else 0#8)

/-- The opcode map is the list of the commands' rows, which no operand byte enters. -/
theorem opcodeTable_eq : opcodeTable =
    [Instr.nop, .eclr, .srst, .encInit, .encByte 0, .encFinal, .decInit, .decChar 0, .decFinal, .pipeInit, .hmacReq,
      .trunc, .reduce].map Instr.row := rfl

theorem mem_opcodeTable_iff (r : OpcodeRow) : r ∈ opcodeTable ↔ ∃ i : Instr, i.row = r := by
  rw [opcodeTable_eq, List.mem_map]
  constructor
  · rintro ⟨i, -, h⟩
    exact ⟨i, h⟩
  · rintro ⟨i, rfl⟩
    cases i with
    | encByte b => exact ⟨.encByte 0, by decide, rfl⟩
    | decChar c => exact ⟨.decChar 0, by decide, rfl⟩
    | _ => exact ⟨_, by decide, rfl⟩

/-- Words put together from fields are equal exactly if the fields are. -/
theorem append_fields_inj {op op' imm imm' : Byte} {rsv rsv' : BitVec 16} :
    op ++ rsv ++ imm = op' ++ rsv' ++ imm' ↔ op = op' ∧ rsv = rsv' ∧ imm = imm' := by
  constructor
  · intro h
    obtain ⟨hop, hrsv, himm⟩ := fields_append op imm rsv
    obtain ⟨hop', hrsv', himm'⟩ := fields_append op' imm' rsv'
    exact ⟨by rw [← hop, h, hop'], by rw [← hrsv, h, hrsv'], by rw [← himm, h, himm']⟩
  · rintro ⟨rfl, rfl, rfl⟩
    rfl

/-- A row fixes OP and RSV, and IMM8 where its command has no operand. -/
theorem row_accepts_iff (i : Instr) (w : Word) :
    i.row.accepts w = true ↔ opField w = i.opcode ∧ rsvField w = 0 ∧ (i.operand = none → immField w = 0) := by
  have hmasked : w &&& i.row.mask =
      (opField w &&& 0xFF#8) ++ (rsvField w &&& 0xFFFF#16) ++
        (immField w &&& if i.operand = none then 0xFF#8 else 0#8) := by
    rw [← BitVec.and_append, ← BitVec.and_append, append_fields, Instr.row]
  have hop : opField w &&& 0xFF#8 = opField w := BitVec.and_allOnes
  have hrsv : rsvField w &&& 0xFFFF#16 = rsvField w := BitVec.and_allOnes
  have himm : immField w &&& 0xFF#8 = immField w := BitVec.and_allOnes
  rw [OpcodeRow.accepts, beq_iff_eq, hmasked, hop, hrsv, Instr.row, append_fields_inj]
  split_ifs with hnone <;> simp [hnone, himm]

/-- The row of a word's command accepts the word. -/
theorem row_accepts_of_decode {w : Word} {i : Instr} (h : decode w = .ok i) : i.row.accepts w = true := by
  obtain ⟨hname, hfields⟩ := (decode_eq_ok_iff_fields w i).1 h
  obtain ⟨hop, -⟩ := (instrOfOp_eq_some_iff _ _ _).1 hname
  exact (row_accepts_iff i w).2 ⟨hop.symm, hfields⟩

/-- Whatever the operand byte, a command's OP names a command of the same row. -/
theorem exists_instrOfOp_opcode (i : Instr) (imm : Byte) : ∃ j, instrOfOp i.opcode imm = some j ∧ j.row = i.row := by
  cases i <;> exact ⟨_, rfl, rfl⟩

/-- A row that accepts a word is the row of the word's command. -/
theorem exists_decode_of_row_accepts {i : Instr} {w : Word} (h : i.row.accepts w = true) :
    ∃ j, decode w = .ok j ∧ j.row = i.row := by
  obtain ⟨hop, hrsv, hzero⟩ := (row_accepts_iff i w).1 h
  obtain ⟨j, hname, hrow⟩ := exists_instrOfOp_opcode i (immField w)
  obtain ⟨hopcode, -⟩ := (instrOfOp_eq_some_iff _ _ _).1 hname
  rw [i.operand_eq_none_iff, ← hopcode, ← j.operand_eq_none_iff] at hzero
  exact ⟨j, (decode_eq_ok_iff_fields w j).2 ⟨hop ▸ hname, hrsv, hzero⟩, hrow⟩

/-- Settles O3: a row that accepts a word is that of the one command the word decodes to. -/
theorem oneRowOfTheOpcodeMapPerLegalWord : Obligations.OneRowOfTheOpcodeMapPerLegalWord := by
  simp only [Obligations.OneRowOfTheOpcodeMapPerLegalWord, mem_opcodeTable_iff, legalWord_iff_decodes]
  refine ⟨fun w => ⟨?_, ?_⟩, ?_, fun w i h => ?_⟩
  · rintro ⟨_, ⟨i, rfl⟩, h⟩
    obtain ⟨j, hj, -⟩ := exists_decode_of_row_accepts h
    exact ⟨j, hj⟩
  · rintro ⟨i, h⟩
    exact ⟨i.row, ⟨i, rfl⟩, row_accepts_of_decode h⟩
  · rintro w _ ⟨i, rfl⟩ _ ⟨j, rfl⟩ hi hj
    obtain ⟨i', hi', hrow⟩ := exists_decode_of_row_accepts hi
    obtain ⟨j', hj', hrow'⟩ := exists_decode_of_row_accepts hj
    obtain rfl : i' = j' := Except.ok.inj (hi'.symm.trans hj')
    exact hrow.symm.trans hrow'
  · obtain ⟨hname, -⟩ := (decode_eq_ok_iff_fields w i).1 h
    obtain ⟨-, hoperand⟩ := (instrOfOp_eq_some_iff _ _ _).1 hname
    exact ⟨i.row, ⟨i, rfl⟩, row_accepts_of_decode h, rfl, hoperand⟩

end Sys2Proof
end

section
/-!
SUPPORT. Commands as text: the disassembly of a word (30_encoding.md R100) and the assembler's reading of a command
(R98), whose well-formed texts are those of the commands.
-/

namespace Sys2Proof

/-! ### Disassembly -/

/-- Settles O53: a command's word decodes to it, an illegal word to none. -/
theorem disassemblyNamesTheCommand : Obligations.DisassemblyNamesTheCommand := by
  refine ⟨fun i h => ?_, fun i b h => ?_, fun w h => ?_⟩
  · simp only [disassemble, decode_encode, h]
  · simp only [disassemble, decode_encode, h]
  · obtain ⟨r, hr⟩ := decode_of_not_legalWord h
    simp only [disassemble, hr]

/-! ### The assembler's commands -/

/-- A command as a host program spells it (R98). -/
def Instr.text (i : Instr) : CommandText := ⟨i.mnemonic, i.operand.map BitVec.toNat⟩

/-- The well-formed texts are the commands' texts (R92, R98). -/
theorem CommandText.wf_iff (t : CommandText) : t.wf = true ↔ ∃ i : Instr, i.text = t := by
  constructor
  · obtain ⟨m, _ | v⟩ := t
    · simp only [CommandText.wf, plainMnemonics, List.contains_iff_mem, List.mem_cons, List.not_mem_nil, or_false]
      rintro (rfl | rfl | rfl | rfl | rfl | rfl | rfl | rfl | rfl | rfl | rfl)
      exacts [⟨.nop, rfl⟩, ⟨.eclr, rfl⟩, ⟨.srst, rfl⟩, ⟨.encInit, rfl⟩, ⟨.encFinal, rfl⟩, ⟨.decInit, rfl⟩,
        ⟨.decFinal, rfl⟩, ⟨.pipeInit, rfl⟩, ⟨.hmacReq, rfl⟩, ⟨.trunc, rfl⟩, ⟨.reduce, rfl⟩]
    · simp only [CommandText.wf, operandMnemonics, Bool.and_eq_true, List.contains_iff_mem, List.mem_cons,
        List.not_mem_nil, or_false, decide_eq_true_eq]
      rintro ⟨hm, hv⟩
      have hbyte : (BitVec.ofNat 8 v).toNat = v := Nat.mod_eq_of_lt (Nat.lt_succ_of_le hv)
      obtain rfl | rfl := hm
      · exact ⟨.encByte (BitVec.ofNat 8 v), congrArg (CommandText.mk _ ∘ some) hbyte⟩
      · exact ⟨.decChar (BitVec.ofNat 8 v), congrArg (CommandText.mk _ ∘ some) hbyte⟩
  · rintro ⟨i, rfl⟩
    cases i with
    | encByte b => exact decide_eq_true (Nat.le_of_lt_succ b.isLt)
    | decChar c => exact decide_eq_true (Nat.le_of_lt_succ c.isLt)
    | _ => decide

/-- The assembler reads a command's text as that command. -/
theorem assembleCommand_text (i : Instr) : assembleCommand i.text = some i := by
  rw [assembleCommand, if_pos ((CommandText.wf_iff _).2 ⟨i, rfl⟩)]
  cases i <;> simp [Instr.text, Instr.operand, Instr.mnemonic]

/-- The assembler reads no other text as that command. -/
theorem assembleCommand_eq_some_iff (t : CommandText) (i : Instr) : assembleCommand t = some i ↔ i.text = t := by
  constructor
  · intro h
    have hwf : t.wf = true := by
      by_contra hnot
      simp [assembleCommand, hnot] at h
    obtain ⟨j, rfl⟩ := (CommandText.wf_iff t).1 hwf
    rw [assembleCommand_text, Option.some.injEq] at h
    rw [h]
  · rintro rfl
    exact assembleCommand_text i

/-- Settles O52: the accepted texts are the commands' texts. -/
theorem assemblerAcceptsTheWellFormedCommands : Obligations.AssemblerAcceptsTheWellFormedCommands := by
  simp only [Obligations.AssemblerAcceptsTheWellFormedCommands, assembleCommand_eq_some_iff, CommandText.wf_iff]
  refine ⟨fun _ => trivial, ?_⟩
  rintro _ i rfl
  exact ⟨rfl, rfl⟩

end Sys2Proof
end

section
/-!
SUPPORT. An illegal word at CMD (30_encoding.md R95), and the host's polling reads and pseudo-instructions (R98, R99).
-/

namespace Sys2Proof.Machine

/-! ### Illegal words -/

/-- ERRCODE is 0 exactly while no error is recorded (10_state.md R28). -/
theorem errCode_eq_zero_iff (e : ErrRec) : errCode e = 0 ↔ e.code = none := by
  obtain ⟨_ | k, m⟩ := e
  · simp [errCode]
  · cases k <;> simp [errCode, errKindCode]

theorem recordError_of_none {e : ErrRec} (h : e.code = none) (k : ErrKind) :
    recordError k e = { e with code := some k } := by
  rw [recordError, h]

theorem recordError_of_some {e : ErrRec} (h : e.code ≠ none) (k : ErrKind) :
    recordError k e = { e with mult := true } := by
  obtain ⟨k', hk⟩ := Option.ne_none_iff_exists'.1 h
  rw [recordError, hk]

/-- An illegal word at CMD raises IllegalCommand against no unit, in every state (R95). -/
theorem busWrite_of_not_legalWord {w : Word} (h : legalWord w = false) (s : State) :
    busWrite 0 w s = .next (raise .illegalCommand .noUnit s) := by
  obtain ⟨r, hr⟩ := decode_of_not_legalWord h
  change executeWord w s = _
  rw [executeWord, hr]

/-- Settles O7: the error is raised, and the record keeps the first kind. -/
theorem illegalWordOnlyRecordsTheError : Obligations.IllegalWordOnlyRecordsTheError := by
  refine fun w s h => ⟨busWrite_of_not_legalWord h s, fun hzero => ?_, fun hne => ?_⟩
  · rw [recordError_of_none ((errCode_eq_zero_iff _).1 hzero)]
    exact ⟨rfl, rfl⟩
  · rw [recordError_of_some (mt (errCode_eq_zero_iff _).2 hne)]
    exact ⟨rfl, rfl⟩

/-! ### Host programs -/

/-- A POLLNE read keeps the host at its statement while the masked value is the one named. -/
theorem hostStep_of_pollNe {s : State} {a : WAddr} {mask value : Word}
    (hop : s.host.program[s.host.statement]? = some (.pollNe a mask value)) :
    hostStep s = .next { s with host := { s.host with
      statement := if busRead a s &&& mask = value then s.host.statement else s.host.statement + 1
      pc := s.host.pc + 1
      reads := s.host.reads ++ [busRead a s] } } := by
  simp [hostStep, hop, hostOp, pollRead_eq]

/-- A POLLEQ read keeps the host at its statement until the masked value is the one named. -/
theorem hostStep_of_pollEq {s : State} {a : WAddr} {mask value : Word}
    (hop : s.host.program[s.host.statement]? = some (.pollEq a mask value)) :
    hostStep s = .next { s with host := { s.host with
      statement := if busRead a s &&& mask = value then s.host.statement + 1 else s.host.statement
      pc := s.host.pc + 1
      reads := s.host.reads ++ [busRead a s] } } := by
  simp [hostStep, hop, hostOp, pollRead_eq]

/-- Settles O51: the host moves next, and its polling read goes on or stays. -/
theorem pollingReadsUntilTheConditionHolds : Obligations.PollingReadsUntilTheConditionHolds := by
  intro s rest a mask value hnext
  rw [step_of_host_next hnext]
  exact ⟨fun hop => hostStep_of_pollNe hop, fun hop => hostStep_of_pollEq hop⟩

/-- The two halves of a counter value, side by side (10_state.md R27). -/
theorem append_halves (v : BitVec 64) : v.extractLsb' 32 32 ++ v.extractLsb' 0 32 = v := by
  rw [BitVec.extractLsb'_append_extractLsb'_eq_extractLsb' (by rfl)]
  exact BitVec.extractLsb'_eq_self

/-- Settles O54: each expansion is the one R99 gives, and the two halves make the counter. -/
theorem pseudoInstructionsSpellTheirExpansions : Obligations.PseudoInstructionsSpellTheirExpansions :=
  ⟨fun _ => ⟨rfl, rfl, rfl⟩, fun v _ => ⟨_, _, _, _, rfl, rfl, rfl, append_halves v⟩, fun _ _ _ => rfl, rfl, rfl⟩

end Sys2Proof.Machine
end

section
/-!
SUPPORT. The encoder's commands in each encoder state (40_base32_encoder.md R112 to R114, 60_exceptions.md R204), and
the alphabet (R111).
-/

namespace Sys2Proof.Machine

/-- Settles O18: a letter's and a digit's code fit a byte. -/
theorem alphabetInValueOrder : Obligations.AlphabetInValueOrder := by
  intro v
  have hv := v.isLt
  refine ⟨fun h => ?_, fun h => ?_⟩
  · rw [alpha, if_pos h, BitVec.toNat_ofNat]
    omega
  · rw [alpha, if_neg (by omega), BitVec.toNat_ofNat]
    omega

/-- Settles O15: the word is the command's, and its effect is ENC.INIT's own update. -/
theorem encInitStartsAnEmptyStream : Obligations.EncInitStartsAnEmptyStream :=
  ⟨decode_encode .encInit, fun _ => rfl⟩

/-! ### ENC.BYTE and ENC.FINAL by the encoder's state -/

section

variable {s : State} (b : Byte)

theorem exec_encByte_of_error (hst : s.enc.st = .error) : exec (.encByte b) s = .next s := by
  simp [exec, execEncByte, encByteWith, hst]

theorem exec_encByte_of_done (hst : s.enc.st = .done) : exec (.encByte b) s = .next (raise .sequence .enc s) := by
  simp [exec, execEncByte, encByteWith, hst]

theorem exec_encByte_of_full (hst : s.enc.st = .opened) (hfull : s.enc.inCount.toNat = 64) :
    exec (.encByte b) s = .next (raise .overflow .enc s) := by
  simp [exec, execEncByte, encByteWith, hst, hfull]

theorem exec_encByte_of_room (hst : s.enc.st = .opened) (hroom : s.enc.inCount.toNat ≠ 64) :
    exec (.encByte b) s = .next { s with enc := appendByte b s.enc } := by
  simp [exec, execEncByte, encByteWith, hst, hroom]

theorem exec_encFinal_of_error (hst : s.enc.st = .error) : exec .encFinal s = .next s := by
  simp [exec, execEncFinal, hst]

theorem exec_encFinal_of_done (hst : s.enc.st = .done) : exec .encFinal s = .next (raise .sequence .enc s) := by
  simp [exec, execEncFinal, hst]

theorem exec_encFinal_of_opened (hst : s.enc.st = .opened) :
    exec .encFinal s = .next { s with
      enc := { s.enc with buf := s.enc.buf ++ finalSymbols s.enc, acc := 0, nb := 0, st := .done } } := by
  simp [exec, execEncFinal, hst]

end

/-- The word of ENC.BYTE: OP and RSV, then the byte (30_encoding.md R91, R93). -/
theorem encode_encByte (b : Byte) : encode (.encByte b) = 0x110000#24 ++ b :=
  congrArg (· ++ b) (show 0x11#8 ++ 0#16 = 0x110000#24 by decide)

/-- Settles O16: state by state, with the accepted byte in closed form. -/
theorem encByteEmitsTheCompleteGroups : Obligations.EncByteEmitsTheCompleteGroups := by
  refine fun b s => ⟨encode_encByte b ▸ decode_encode (.encByte b), exec_encByte_of_error b, exec_encByte_of_done b,
    exec_encByte_of_full b, fun hst hroom => ?_⟩
  rw [exec_encByte_of_room b hst hroom, appendByte_eq]

/-- The symbol of the last partial group, its bits times the power that puts the zeros on their right (R114). -/
theorem finalSymbols_eq (e : Encoder) :
    finalSymbols e =
      if e.nb = 0 then [] else [alpha (BitVec.ofNat 5 (e.acc.toNat * 2 ^ (5 - e.nb.toNat)))] := by
  have hzero : e.nb = 0 ↔ ¬ 0 < e.nb.toNat := by
    rw [Nat.not_lt, Nat.le_zero, ← BitVec.toNat_inj]
    rfl
  simp only [finalSymbols, Nat.shiftLeft_eq, hzero, ite_not]

/-- Settles O17: state by state, with the last group as arithmetic. -/
theorem encFinalEmitsTheLastGroup : Obligations.EncFinalEmitsTheLastGroup := by
  refine ⟨decode_encode .encFinal, fun s => ⟨exec_encFinal_of_error, exec_encFinal_of_done, fun hst => ?_⟩⟩
  rw [exec_encFinal_of_opened hst, finalSymbols_eq]

end Sys2Proof.Machine
end

section
/-!
SUPPORT. What the encoder's commands leave as it is, and what leaves the encoder as it is (40_base32_encoder.md R110,
R115, 60_exceptions.md R205).
-/

namespace Sys2Proof.Machine

/-! ### What the encoder's commands do not reach -/

/-- The encoder and the error record show in STATUS, ENC_LEN, ENC_ACC and the ENC_BUF window only (20_memory.md R64). -/
theorem busRead_congr_of_not_encoder {s t : State} (hcfg : t.cfg = s.cfg) (hlo : t.ctrLo = s.ctrLo)
    (hhi : t.ctrHi = s.ctrHi) (hdec : t.dec = s.dec) (hpipe : t.pipe = s.pipe) {a : WAddr}
    (hregs : a.toNat ∉ [1, 5, 6]) (hwindow : ¬ (64 ≤ a.toNat ∧ a.toNat ≤ 95)) : busRead a t = busRead a s := by
  simp only [List.mem_cons, List.not_mem_nil, or_false, not_or] at hregs
  obtain ⟨hstatus, hlen, hacc⟩ := hregs
  have hpast : ¬ a.toNat < 64 → ¬ a.toNat < 96 := by omega
  simp only [busRead, hcfg, hlo, hhi, hdec, hpipe]
  split
  case h_2 h => exact absurd h hstatus
  case h_6 h => exact absurd h hlen
  case h_7 h => exact absurd h hacc
  case h_19 =>
    by_cases hreserved : a.toNat < 64
    · simp only [if_pos hreserved]
    · simp only [if_neg hreserved, if_neg (hpast hreserved)]
  all_goals rfl

/-- An encoder command's effect on what is not the encoder: nothing, but for the record of an error that leaves the
encoder in ERROR. -/
theorem CommandEffect.encoder_frame {s t : State} {i : Instr} (he : CommandEffect s i t) (hi : unitOf i = .enc) :
    t.dec = s.dec ∧ t.pipe = s.pipe ∧ t.cfg = s.cfg ∧ t.ctrLo = s.ctrLo ∧ t.ctrHi = s.ctrHi ∧
      (t.enc.st ≠ .error → t.err = s.err) := by
  cases he with
  | raised => simp [hi]
  | errorsCleared | softReset => cases hi
  | decoder hu => cases hu <;> cases hi
  | pipeline hu => cases hu <;> cases hi
  | unchanged | encoder => exact ⟨rfl, rfl, rfl, rfl, rfl, fun _ => rfl⟩

/-- Settles O55: the frame of an encoder command, and the words that show none of what it changes. -/
theorem encoderCommandsLeaveTheOtherUnits : Obligations.EncoderCommandsLeaveTheOtherUnits := by
  intro s t i hi h
  have hunit : unitOf i = .enc := by rcases hi with rfl | ⟨b, rfl⟩ | rfl <;> rfl
  obtain ⟨hdec, hpipe, hcfg, hlo, hhi, herr⟩ := (effect_of_exec h).encoder_frame hunit
  exact ⟨hdec, hpipe, hcfg, hlo, hhi, herr, fun a => busRead_congr_of_not_encoder hcfg hlo hhi hdec hpipe⟩

/-! ### What the encoder depends on -/

/-- A command that does not act on the encoder raises its errors against another unit, or none. -/
theorem unitOf_ne_enc {i : Instr} (hi : actsOnEncoder i = false) : unitOf i ≠ .enc := by
  cases i <;> simp [actsOnEncoder, unitOf] at hi ⊢

/-- An error against another unit, or none, leaves the encoder. -/
theorem raise_enc_of_ne {u : UnitId} (hu : u ≠ .enc) (k : ErrKind) (s : State) :
    (raise k u s).enc = s.enc := by
  cases u with
  | enc => exact absurd rfl hu
  | dec | pipe | noUnit => rfl

/-- A command that does not act on the encoder leaves it (R205). -/
theorem CommandEffect.enc_of_not_acts {s t : State} {i : Instr} (he : CommandEffect s i t)
    (hi : actsOnEncoder i = false) : t.enc = s.enc := by
  cases he with
  | raised => exact raise_enc_of_ne (unitOf_ne_enc hi) _ _
  | softReset => cases hi
  | encoder hu => cases hu <;> cases hi
  | unchanged | errorsCleared | decoder | pipeline => rfl

/-- What ENC.BYTE makes of the encoder depends on the encoder only. -/
theorem encByteWith_enc_congr {s t : State} (h : s.enc = t.enc) (cap : Nat) (b : Byte) :
    (encByteWith cap b s).enc = (encByteWith cap b t).enc := by
  simp only [encByteWith, h]
  split
  · exact h
  · rfl
  · split <;> rfl

/-- What a command that acts on the encoder makes of it depends on the encoder only. -/
theorem exec_enc_congr {s t : State} (h : s.enc = t.enc) {i : Instr} (hi : actsOnEncoder i = true) :
    ∃ s' t', exec i s = .next s' ∧ exec i t = .next t' ∧ s'.enc = t'.enc := by
  cases i with
  | encInit | srst => exact ⟨_, _, rfl, rfl, rfl⟩
  | encByte b => exact ⟨_, _, rfl, rfl, encByteWith_enc_congr h _ b⟩
  | encFinal =>
    cases hst : t.enc.st with
    | error => exact ⟨_, _, exec_encFinal_of_error (h ▸ hst), exec_encFinal_of_error hst, h⟩
    | done => exact ⟨_, _, exec_encFinal_of_done (h ▸ hst), exec_encFinal_of_done hst, rfl⟩
    | opened => exact ⟨_, _, exec_encFinal_of_opened (h ▸ hst), exec_encFinal_of_opened hst, by rw [h]⟩
  | nop | eclr | decInit | decChar | decFinal | pipeInit | hmacReq | trunc | reduce => cases hi

/-- A command list runs its first command, then the rest. -/
theorem execAll_cons {i : Instr} {s t : State} (h : exec i s = .next t) (is : List Instr) :
    execAll (i :: is) s = execAll is t := by
  rw [execAll, h]

/-- Settles O20, by induction on the commands: one that acts on the encoder keeps the two encoders the same, every
other leaves the first run's encoder as it is. -/
theorem encoderSeesOnlyItsOwnCommands : Obligations.EncoderSeesOnlyItsOwnCommands := by
  intro is
  induction is with
  | nil => exact fun s t h => ⟨s, t, rfl, rfl, h⟩
  | cons i is ih =>
    intro s t h
    cases hi : actsOnEncoder i with
    | true =>
      obtain ⟨s', t', hs, ht, henc⟩ := exec_enc_congr h hi
      rw [List.filter_cons_of_pos hi, execAll_cons hs, execAll_cons ht]
      exact ih s' t' henc
    | false =>
      obtain ⟨s', hs, heffect⟩ := exec_effect i s
      rw [List.filter_cons_of_neg (by simp [hi]), execAll_cons hs]
      exact ih s' t ((heffect.enc_of_not_acts hi).trans h)

end Sys2Proof.Machine
end

section
/-!
SUPPORT. The encode stream (40_base32_encoder.md R115): the encoder's form after some bytes, kept by every further byte,
and ENC.FINAL's last symbol, which completes the source's encoding.
-/

namespace Sys2Proof.Machine

theorem sourceEncode_length (bytes : List Byte) : (sourceEncode bytes).length = (8 * bytes.length + 4) / 5 := by
  simp [sourceEncode]

/-- ENC.BYTE takes one more byte of a stream that has room for it. -/
theorem exec_encByte_encodedSoFar (s : State) (l : List Byte) (b : Byte) (h : l.length < 64) :
    exec (.encByte b) { s with enc := encodedSoFar l } = .next { s with enc := encodedSoFar (l ++ [b]) } := by
  have hroom : (encodedSoFar l).inCount.toNat ≠ 64 := by
    simp only [encodedSoFar, BitVec.toNat_ofNat]
    omega
  rw [exec_encByte_of_room b rfl hroom, appendByte_encodedSoFar]

/-- One ENC.BYTE per byte takes a stream from the bytes `l` to the bytes `l ++ bytes`, and the commands after them run
from there. -/
theorem execAll_encBytes (s : State) (is : List Instr) (bytes l : List Byte) (h : l.length + bytes.length ≤ 64) :
    execAll (bytes.map .encByte ++ is) { s with enc := encodedSoFar l } =
      execAll is { s with enc := encodedSoFar (l ++ bytes) } := by
  induction bytes generalizing l with
  | nil => simp
  | cons b bytes ih =>
    rw [List.length_cons] at h
    rw [List.map_cons, List.cons_append, execAll_cons (exec_encByte_encodedSoFar s l b (by omega)),
      ih (l ++ [b]) (by simp; omega), List.append_assoc, List.singleton_append]

/-- The complete groups of a padded number, `len` groups long, are those of the number itself. -/
theorem encodedSoFar_buf_of_padded (l : List Byte) {len : Nat} (h : 8 * l.length ≤ 5 * len) :
    (List.range (8 * l.length / 5)).map (fun j =>
      alpha (BitVec.ofNat 5 (bytesValue l * 2 ^ (5 * len - 8 * l.length) / 2 ^ (5 * len - 5 * j - 5)))) =
      (encodedSoFar l).buf := by
  apply List.map_congr_left
  intro j hj
  rw [List.mem_range] at hj
  have hpos : 5 * len - 5 * j - 5 = 5 * len - 8 * l.length + (8 * l.length - 5 * (j + 1)) := by omega
  rw [hpos, pow_add, ← Nat.div_div_eq_div_mul, Nat.mul_div_cancel _ (by positivity)]

/-- The last group's bits with their zeros are the five low bits of the padded number. -/
theorem ofNat_mod_pow_mul (x r : Nat) (h : r ≤ 5) :
    BitVec.ofNat 5 (x % 2 ^ r * 2 ^ (5 - r)) = BitVec.ofNat 5 (x * 2 ^ (5 - r)) := by
  have hpow : 2 ^ r * 2 ^ (5 - r) = 2 ^ 5 := by rw [← pow_add, Nat.add_sub_cancel' h]
  apply BitVec.eq_of_toNat_eq
  rw [← Nat.mul_mod_mul_right, hpow, BitVec.toNat_ofNat, BitVec.toNat_ofNat, Nat.mod_mod]

/-- What an encode stream has emitted, with ENC.FINAL's symbol, is the source's encoding. -/
theorem encodedSoFar_buf_append_finalSymbols (l : List Byte) :
    (encodedSoFar l).buf ++ finalSymbols (encodedSoFar l) = sourceEncode l := by
  have hnb : (encodedSoFar l).nb = 0 ↔ 8 * l.length % 5 = 0 := by
    rw [← BitVec.toNat_inj, encodedSoFar_nb]
    rfl
  simp only [finalSymbols_eq, hnb, sourceEncode]
  split_ifs with hr
  · have hlen : (8 * l.length + 4) / 5 = 8 * l.length / 5 := by omega
    rw [List.append_nil, hlen, encodedSoFar_buf_of_padded l (by omega)]
  · have hlen : (8 * l.length + 4) / 5 = 8 * l.length / 5 + 1 := by omega
    have hpad : 5 - 8 * l.length % 5 = 5 * (8 * l.length / 5 + 1) - 8 * l.length := by omega
    have hlast : 5 * (8 * l.length / 5 + 1) - 5 * (8 * l.length / 5) - 5 = 0 := by omega
    rw [hlen, List.range_succ, List.map_append, encodedSoFar_buf_of_padded l (by omega), List.map_singleton, hlast,
      pow_zero, Nat.div_one, encodedSoFar_nb, encodedSoFar_acc, ofNat_mod_pow_mul _ _ (by omega), hpad]

/-- Settles O19: the bytes keep the form of an unfinished stream, which ENC.FINAL completes. -/
theorem encodeStreamGivesTheSourceEncoding : Obligations.EncodeStreamGivesTheSourceEncoding := by
  refine fun bytes s h => ⟨?_, sourceEncode_length bytes⟩
  have hinit : exec .encInit s = .next { s with enc := encodedSoFar [] } := rfl
  have hfinal : exec .encFinal { s with enc := encodedSoFar bytes } =
      .next { s with enc := ⟨.done, 0, 0, BitVec.ofNat 7 bytes.length, sourceEncode bytes⟩ } := by
    rw [exec_encFinal_of_opened rfl, encodedSoFar_buf_append_finalSymbols]
    rfl
  rw [encodeStream, execAll_cons hinit, execAll_encBytes s _ bytes [] (by simpa using h), List.nil_append,
    execAll_cons hfinal]
  rfl

end Sys2Proof.Machine
end

section
/-!
SUPPORT. The class of every character (41_base32_decoder.md R131), and the decoder's commands in each decoder state
(R132 to R134, 60_exceptions.md R204).
-/

namespace Sys2Proof.Machine

/-! ### The class of a character -/

theorem foldCase_of_lower {c : Byte} (h : 0x61 ≤ c.toNat ∧ c.toNat ≤ 0x7A) : (foldCase c).toNat = c.toNat - 0x20 := by
  have hle : 0x20#8 ≤ c := BitVec.le_def.2 (le_trans (by decide) h.1)
  rw [foldCase, if_pos (by simpa [BitVec.le_def] using h), BitVec.toNat_sub_of_le hle]
  rfl

theorem foldCase_of_not_lower {c : Byte} (h : ¬ (0x61 ≤ c.toNat ∧ c.toNat ≤ 0x7A)) : foldCase c = c :=
  if_neg (by simpa [BitVec.le_def] using h)

/-- The alphabet's letters are its values 0 to 25 (R111). -/
theorem symbolValue_of_letter {u : Byte} (h : 0x41 ≤ u.toNat ∧ u.toNat ≤ 0x5A) :
    symbolValue u = some (BitVec.ofNat 5 (u.toNat - 0x41)) :=
  if_pos (by simpa [BitVec.le_def] using h)

/-- The alphabet's digits are its values 26 to 31 (R111). -/
theorem symbolValue_of_digit {u : Byte} (h : 0x32 ≤ u.toNat ∧ u.toNat ≤ 0x37) :
    symbolValue u = some (BitVec.ofNat 5 (u.toNat - 0x32 + 26)) := by
  rw [symbolValue, if_neg (by simp only [BitVec.le_def, BitVec.toNat_ofNat]; omega),
    if_pos (by simpa [BitVec.le_def] using h)]

theorem symbolValue_of_neither {u : Byte} (hletter : ¬ (0x41 ≤ u.toNat ∧ u.toNat ≤ 0x5A))
    (hdigit : ¬ (0x32 ≤ u.toNat ∧ u.toNat ≤ 0x37)) : symbolValue u = none := by
  rw [symbolValue, if_neg (by simpa [BitVec.le_def] using hletter), if_neg (by simpa [BitVec.le_def] using hdigit)]

theorem classify_of_some {c : Byte} {v : BitVec 5} (h : symbolValue (foldCase c) = some v) :
    classify c = .symbol v := by
  rw [classify, h]

theorem classify_of_none {c : Byte} (h : symbolValue (foldCase c) = none) :
    classify c = if c = 0x3D#8 then .pad else .other := by
  rw [classify, h]

/-- Settles O21: the lower-case letters fold to the upper-case ones, every other code stays itself. -/
theorem charactersAreClassifiedAsTheManualSays : Obligations.CharactersAreClassifiedAsTheManualSays := by
  refine fun c => ⟨fun h => ?_, fun h => ?_, fun h => ?_, ?_, fun h => ?_⟩
  · refine classify_of_some ?_
    rw [foldCase_of_not_lower (by omega), symbolValue_of_letter h]
  · have hfold := foldCase_of_lower h
    refine classify_of_some ?_
    rw [symbolValue_of_letter (by omega), hfold, Nat.sub_sub]
  · refine classify_of_some ?_
    rw [foldCase_of_not_lower (by omega), symbolValue_of_digit h]
  · rintro rfl
    decide
  · have hpad : c ≠ 0x3D#8 := by
      rintro rfl
      simp at h
    refine (classify_of_none ?_).trans (if_neg hpad)
    rw [foldCase_of_not_lower (by omega), symbolValue_of_neither (by omega) (by omega)]

/-! ### DEC.CHAR and DEC.FINAL by the decoder's state -/

section

variable {s : State} {c : Byte} {v : BitVec 5}

theorem exec_decChar_of_error (hst : s.dec.st = .error) : exec (.decChar c) s = .next s := by
  simp [exec, execDecChar, decCharWith, hst]

theorem exec_decChar_of_done (hst : s.dec.st = .done) : exec (.decChar c) s = .next (raise .sequence .dec s) := by
  simp [exec, execDecChar, decCharWith, hst]

/-- In OPEN and PAD the character's class decides. -/
theorem exec_decChar_of_stream (hst : s.dec.st = .opened ∨ s.dec.st = .pad) :
    exec (.decChar c) s = .next (takeClass 64 (classify c) s) := by
  rcases hst with hst | hst <;> simp [exec, execDecChar, decCharWith, hst]

theorem exec_decChar_of_symbol_after_pad (hst : s.dec.st = .pad) (hc : classify c = .symbol v) :
    exec (.decChar c) s = .next (raise .invalidCharacter .dec s) := by
  rw [exec_decChar_of_stream (.inr hst), hc, takeClass, if_pos hst]

theorem exec_decChar_of_symbol (hst : s.dec.st = .opened) (hc : classify c = .symbol v) :
    exec (.decChar c) s = .next (takeSymbol 64 v s) := by
  rw [exec_decChar_of_stream (.inl hst), hc, takeClass, if_neg (by simp [hst])]

theorem exec_decChar_of_full (hst : s.dec.st = .opened) (hc : classify c = .symbol v) (hbyte : 8 ≤ s.dec.nb.toNat + 5)
    (hfull : s.dec.buf.length = 64) : exec (.decChar c) s = .next (raise .overflow .dec s) := by
  rw [exec_decChar_of_symbol hst hc, takeSymbol, if_pos ⟨by simpa [completesByte] using hbyte, hfull⟩]

theorem exec_decChar_of_room (hst : s.dec.st = .opened) (hc : classify c = .symbol v)
    (hroom : s.dec.nb.toNat + 5 < 8 ∨ s.dec.buf.length ≠ 64) :
    exec (.decChar c) s = .next { s with dec := appendSymbol v s.dec } := by
  have hnot : ¬ (completesByte s.dec = true ∧ s.dec.buf.length = 64) := by
    rw [completesByte, decide_eq_true_eq]
    omega
  rw [exec_decChar_of_symbol hst hc, takeSymbol, if_neg hnot]

theorem exec_decChar_of_pad_strict (hst : s.dec.st = .opened ∨ s.dec.st = .pad) (hc : classify c = .pad)
    (hpol : s.dec.pol = .strict) : exec (.decChar c) s = .next { s with dec := { s.dec with st := .pad } } := by
  rw [exec_decChar_of_stream hst, hc, takeClass, hpol]

theorem exec_decChar_of_other_strict (hst : s.dec.st = .opened ∨ s.dec.st = .pad) (hc : classify c = .other)
    (hpol : s.dec.pol = .strict) : exec (.decChar c) s = .next (raise .invalidCharacter .dec s) := by
  rw [exec_decChar_of_stream hst, hc, takeClass, hpol]

/-- STRIP drops every character that is no SYMBOL. -/
theorem exec_decChar_of_dropped (hst : s.dec.st = .opened ∨ s.dec.st = .pad)
    (hc : classify c = .pad ∨ classify c = .other) (hpol : s.dec.pol = .strip) : exec (.decChar c) s = .next s := by
  rcases hc with hc | hc <;> rw [exec_decChar_of_stream hst, hc, takeClass, hpol]

theorem exec_decFinal_of_error (hst : s.dec.st = .error) : exec .decFinal s = .next s := by
  simp [exec, execDecFinal, hst]

theorem exec_decFinal_of_done (hst : s.dec.st = .done) : exec .decFinal s = .next (raise .sequence .dec s) := by
  simp [exec, execDecFinal, hst]

theorem exec_decFinal_of_stream (hst : s.dec.st = .opened ∨ s.dec.st = .pad) :
    exec .decFinal s = .next { s with dec := { s.dec with acc := 0, nb := 0, st := .done } } := by
  rcases hst with hst | hst <;> simp [exec, execDecFinal, finishDecode, hst]

end

/-- The word of DEC.CHAR: OP and RSV, then the character (30_encoding.md R91, R93). -/
theorem encode_decChar (c : Byte) : encode (.decChar c) = 0x210000#24 ++ c :=
  congrArg (· ++ c) (show 0x21#8 ++ 0#16 = 0x210000#24 by decide)

/-- Settles O22: the word is the command's, and its effect is DEC.INIT's own update. -/
theorem decInitLatchesThePolicy : Obligations.DecInitLatchesThePolicy :=
  ⟨decode_encode .decInit, fun _ => rfl⟩

/-- Settles O23: state by state and class by class, with the gathered bits as arithmetic. -/
theorem decCharTakesTheCharacter : Obligations.DecCharTakesTheCharacter := by
  refine fun c s => ⟨encode_decChar c ▸ decode_encode (.decChar c), exec_decChar_of_error, exec_decChar_of_done,
    fun hst ⟨_, hc⟩ => exec_decChar_of_symbol_after_pad hst hc,
    fun v hst hc => ⟨exec_decChar_of_full hst hc, fun hbyte hroom => ?_, fun hbits => ?_⟩,
    fun hst hc => ⟨exec_decChar_of_pad_strict hst hc, exec_decChar_of_dropped hst (.inl hc)⟩,
    fun hst hc => ⟨exec_decChar_of_other_strict hst hc, exec_decChar_of_dropped hst (.inr hc)⟩⟩
  · rw [exec_decChar_of_room hst hc (.inr hroom), appendSymbol_of_completes v s.dec hbyte]
  · rw [exec_decChar_of_room hst hc (.inl hbits), appendSymbol_of_not_completes v s.dec hbits]

/-- Settles O24: state by state. -/
theorem decFinalDropsThePartialByte : Obligations.DecFinalDropsThePartialByte :=
  ⟨decode_encode .decFinal, fun _ => ⟨exec_decFinal_of_error, exec_decFinal_of_done, exec_decFinal_of_stream⟩⟩

end Sys2Proof.Machine
end

section
/-!
SUPPORT. What the decoder's commands leave as it is (41_base32_decoder.md R130, 60_exceptions.md R205).
-/

namespace Sys2Proof.Machine

/-- The decoder and the error record show in STATUS, DEC_LEN, DEC_ACC and the DEC_BUF window only (20_memory.md R64). -/
theorem busRead_congr_of_not_decoder {s t : State} (hcfg : t.cfg = s.cfg) (hlo : t.ctrLo = s.ctrLo)
    (hhi : t.ctrHi = s.ctrHi) (henc : t.enc = s.enc) (hpipe : t.pipe = s.pipe) {a : WAddr}
    (hregs : a.toNat ∉ [1, 7, 8]) (hwindow : ¬ (96 ≤ a.toNat ∧ a.toNat ≤ 111)) : busRead a t = busRead a s := by
  simp only [List.mem_cons, List.not_mem_nil, or_false, not_or] at hregs
  obtain ⟨hstatus, hlen, hacc⟩ := hregs
  have hpast : ¬ a.toNat < 96 → ¬ a.toNat < 112 := by omega
  simp only [busRead, hcfg, hlo, hhi, henc, hpipe]
  split
  case h_2 h => exact absurd h hstatus
  case h_8 h => exact absurd h hlen
  case h_9 h => exact absurd h hacc
  case h_19 =>
    by_cases hbelow : a.toNat < 96
    · simp only [if_pos hbelow]
    · simp only [if_neg hbelow, if_neg (hpast hbelow)]
  all_goals rfl

/-- A decoder command's effect on what is not the decoder: nothing, but for the record of an error that leaves the
decoder in ERROR. -/
theorem CommandEffect.decoder_frame {s t : State} {i : Instr} (he : CommandEffect s i t) (hi : unitOf i = .dec) :
    t.enc = s.enc ∧ t.pipe = s.pipe ∧ t.cfg = s.cfg ∧ t.ctrLo = s.ctrLo ∧ t.ctrHi = s.ctrHi ∧
      (t.dec.st ≠ .error → t.err = s.err) := by
  cases he with
  | raised => simp [hi]
  | errorsCleared | softReset => cases hi
  | encoder hu => cases hu <;> cases hi
  | pipeline hu => cases hu <;> cases hi
  | unchanged | decoder => exact ⟨rfl, rfl, rfl, rfl, rfl, fun _ => rfl⟩

/-- Settles O56: the frame of a decoder command, and the words that show none of what it changes. -/
theorem decoderCommandsLeaveTheOtherUnits : Obligations.DecoderCommandsLeaveTheOtherUnits := by
  intro s t i hi h
  have hunit : unitOf i = .dec := by rcases hi with rfl | ⟨c, rfl⟩ | rfl <;> rfl
  obtain ⟨henc, hpipe, hcfg, hlo, hhi, herr⟩ := (effect_of_exec h).decoder_frame hunit
  exact ⟨henc, hpipe, hcfg, hlo, hhi, herr, fun a => busRead_congr_of_not_decoder hcfg hlo hhi henc hpipe⟩

end Sys2Proof.Machine
end

section
/-!
SUPPORT. A decode stream's text character by character (41_base32_decoder.md R135): when STRICT rejects a longer text,
the symbols it has, and the first character at which a property of texts comes to hold.
-/

namespace Sys2Proof.Machine

/-! ### The symbols of a text -/

theorem symbolsOf_append_singleton_of_symbol {c : Byte} {v : BitVec 5} (hc : classify c = .symbol v)
    (text : List Byte) : symbolsOf (text ++ [c]) = symbolsOf text ++ [v] := by
  simp [symbolsOf, hc]

theorem symbolsOf_append_singleton_of_not_symbol {c : Byte} (hc : classify c = .pad ∨ classify c = .other)
    (text : List Byte) : symbolsOf (text ++ [c]) = symbolsOf text := by
  rcases hc with hc | hc <;> simp [symbolsOf, hc]

theorem length_symbolsOf_le_append (before after : List Byte) :
    (symbolsOf before).length ≤ (symbolsOf (before ++ after)).length := by
  simp [symbolsOf]

/-! ### The texts that STRICT rejects -/

theorem strictRejects_append_right {before : List Byte} (h : strictRejects before) (after : List Byte) :
    strictRejects (before ++ after) := by
  obtain ⟨c, hc, hother⟩ | ⟨l, r, c, rfl, hpad, x, hx, hsymbol⟩ := h
  · exact .inl ⟨c, List.mem_append_left _ hc, hother⟩
  · exact .inr ⟨l, r ++ after, c, by simp, hpad, x, List.mem_append_left _ hx, hsymbol⟩

theorem strictRejects_append_symbol_of_pad_mem {text : List Byte} {p c : Byte} {v : BitVec 5} (hp : p ∈ text)
    (hpad : classify p = .pad) (hc : classify c = .symbol v) : strictRejects (text ++ [c]) := by
  obtain ⟨l, r, rfl⟩ := List.append_of_mem hp
  exact .inr ⟨l, r ++ [c], p, by simp, hpad, c, by simp, v, hc⟩

/-- The character at which STRICT comes to reject a text is an OTHER, or a SYMBOL after a PAD. -/
theorem other_or_symbol_after_pad_of_strictRejects {text : List Byte} {c : Byte} (hbefore : ¬ strictRejects text)
    (h : strictRejects (text ++ [c])) :
    classify c = .other ∨ (∃ v, classify c = .symbol v) ∧ ∃ p ∈ text, classify p = .pad := by
  obtain ⟨x, hx, hother⟩ | ⟨l, r, p, htext, hpad, x, hx, hsymbol⟩ := h
  · rw [List.mem_append, List.mem_singleton] at hx
    obtain hx | rfl := hx
    · exact absurd (.inl ⟨x, hx, hother⟩) hbefore
    · exact .inl hother
  · obtain rfl | ⟨r, d, rfl⟩ := r.eq_nil_or_concat'
    · cases hx
    · rw [← List.cons_append, ← List.append_assoc] at htext
      obtain ⟨rfl, hlast⟩ := List.append_inj' htext rfl
      obtain rfl : c = d := List.singleton_inj.1 hlast
      rw [List.mem_append, List.mem_singleton] at hx
      obtain hx | rfl := hx
      · exact absurd (.inr ⟨l, r, p, rfl, hpad, x, hx, hsymbol⟩) hbefore
      · exact .inr ⟨hsymbol, p, by simp, hpad⟩

/-- A text of symbols only is not rejected. -/
theorem not_strictRejects_of_symbols {text : List Byte} (h : ∀ c ∈ text, ∃ v, classify c = .symbol v) :
    ¬ strictRejects text := by
  rintro (⟨c, hc, hother⟩ | ⟨l, r, c, rfl, hpad, -⟩)
  · obtain ⟨v, hv⟩ := h c hc
    cases hv.symm.trans hother
  · obtain ⟨v, hv⟩ := h c (by simp)
    cases hv.symm.trans hpad

/-- A property that a text has and the empty text has not comes to hold at some first character. -/
theorem exists_first_char {P : List Byte → Prop} (hnil : ¬ P []) (text : List Byte) (h : P text) :
    ∃ before c after, text = before ++ c :: after ∧ ¬ P before ∧ P (before ++ [c]) := by
  induction text using List.reverseRecOn with
  | nil => exact absurd h hnil
  | append_singleton text c ih =>
    by_cases htext : P text
    · obtain ⟨before, d, after, rfl, hbefore, hfirst⟩ := ih htext
      exact ⟨before, d, after ++ [c], by simp, hbefore, hfirst⟩
    · exact ⟨text, c, [], rfl, htext, h⟩

end Sys2Proof.Machine
end

section
/-!
SUPPORT. The decode stream (41_base32_decoder.md R135): the decoder's form after the characters of a text that its
policy accepts, kept by every further character but the first one rejected and the first one that overflows.
-/

namespace Sys2Proof.Machine

/-- A text that the policy rejects: STRIP rejects none (R133). -/
def rejects (pol : Policy) (text : List Byte) : Prop := pol = .strict ∧ strictRejects text

/-- A text whose symbols hold more bytes than DEC_BUF (R133). -/
def overflows (text : List Byte) : Prop := 64 < 5 * (symbolsOf text).length / 8

/-- DEC_ST after an accepted text: PAD once STRICT has taken a PAD character (R133). -/
def streamSt (pol : Policy) (text : List Byte) : DecSt :=
  if pol = .strict ∧ ∃ c ∈ text, classify c = .pad then .pad else .opened

/-- The decoder after an accepted text. -/
def decodedText (pol : Policy) (text : List Byte) : Decoder := decodedSoFar (streamSt pol text) pol (symbolsOf text)

theorem streamSt_opened_or_pad (pol : Policy) (text : List Byte) :
    streamSt pol text = .opened ∨ streamSt pol text = .pad := by
  unfold streamSt
  split_ifs
  · exact .inr rfl
  · exact .inl rfl

theorem streamSt_append_of_not_pad {c : Byte} (hc : classify c ≠ .pad) (pol : Policy) (text : List Byte) :
    streamSt pol (text ++ [c]) = streamSt pol text := by
  simp [streamSt, hc, or_and_right, exists_or]

theorem rejects_append_right {pol : Policy} {before : List Byte} (h : rejects pol before) (after : List Byte) :
    rejects pol (before ++ after) :=
  ⟨h.1, strictRejects_append_right h.2 after⟩

theorem overflows_append_right {before : List Byte} (h : overflows before) (after : List Byte) :
    overflows (before ++ after) := by
  have hle := length_symbolsOf_le_append before after
  unfold overflows at h ⊢
  omega

theorem not_overflows_nil : ¬ overflows [] := by simp [overflows, symbolsOf]

/-- Before a symbol that is accepted the decoder is OPEN. -/
theorem streamSt_of_accepts_symbol {pol : Policy} {text : List Byte} {c : Byte} {v : BitVec 5}
    (hc : classify c = .symbol v) (h : ¬ rejects pol (text ++ [c])) : streamSt pol text = .opened :=
  if_neg fun ⟨hpol, _, hp, hpad⟩ => h ⟨hpol, strictRejects_append_symbol_of_pad_mem hp hpad hc⟩

/-- DEC.INIT starts the stream (R132). -/
theorem decodedText_nil (pol : Policy) : decodedText pol [] = emptyDecoder pol := by
  have hst : streamSt pol [] = .opened := if_neg (by simp)
  rw [decodedText, hst]
  rfl

theorem decodedText_append_of_symbol {c : Byte} {v : BitVec 5} (hc : classify c = .symbol v) (pol : Policy)
    (text : List Byte) : decodedText pol (text ++ [c]) = appendSymbol v (decodedText pol text) := by
  rw [decodedText, decodedText, streamSt_append_of_not_pad (by simp [hc]), symbolsOf_append_singleton_of_symbol hc,
    appendSymbol_decodedSoFar]

theorem decodedText_append_of_pad_strict {c : Byte} (hc : classify c = .pad) (text : List Byte) :
    decodedText .strict (text ++ [c]) = { decodedText .strict text with st := .pad } := by
  have hst : streamSt .strict (text ++ [c]) = .pad := if_pos ⟨rfl, c, by simp, hc⟩
  rw [decodedText, hst, symbolsOf_append_singleton_of_not_symbol (.inl hc)]
  rfl

theorem decodedText_append_of_dropped {c : Byte} (hc : classify c = .pad ∨ classify c = .other) (text : List Byte) :
    decodedText .strip (text ++ [c]) = decodedText .strip text := by
  simp [decodedText, streamSt, symbolsOf_append_singleton_of_not_symbol hc]

/-! ### One character -/

section

variable {pol : Policy} {text : List Byte} {c : Byte} (s : State)

/-- An accepted character that fits keeps the form of the stream. -/
theorem exec_decChar_decodedText (haccepts : ¬ rejects pol (text ++ [c])) (hfits : ¬ overflows (text ++ [c])) :
    exec (.decChar c) { s with dec := decodedText pol text } =
      .next { s with dec := decodedText pol (text ++ [c]) } := by
  have hst := streamSt_opened_or_pad pol text
  cases hc : classify c with
  | symbol v =>
    have hroom : (decodedText pol text).nb.toNat + 5 < 8 ∨ (decodedText pol text).buf.length ≠ 64 := by
      rw [overflows, symbolsOf_append_singleton_of_symbol hc, List.length_append, List.length_singleton] at hfits
      rw [decodedText, decodedSoFar_nb, decodedSoFar_length]
      omega
    rw [decodedText_append_of_symbol hc]
    exact exec_decChar_of_room (streamSt_of_accepts_symbol hc haccepts) hc hroom
  | pad =>
    cases pol with
    | strict =>
      rw [decodedText_append_of_pad_strict hc]
      exact exec_decChar_of_pad_strict hst hc rfl
    | strip =>
      rw [decodedText_append_of_dropped (.inl hc)]
      exact exec_decChar_of_dropped hst (.inl hc) rfl
  | other =>
    cases pol with
    | strict => exact absurd ⟨rfl, .inl ⟨c, by simp, hc⟩⟩ haccepts
    | strip =>
      rw [decodedText_append_of_dropped (.inr hc)]
      exact exec_decChar_of_dropped hst (.inr hc) rfl

/-- The first rejected character raises InvalidCharacter. -/
theorem exec_decChar_of_first_rejected (hbefore : ¬ strictRejects text) (h : strictRejects (text ++ [c])) :
    exec (.decChar c) { s with dec := decodedText .strict text } =
      .next { s with err := recordError .invalidCharacter s.err, dec := ⟨.error, .strict, 0, 0, []⟩ } := by
  obtain hother | ⟨⟨v, hsymbol⟩, hpad⟩ := other_or_symbol_after_pad_of_strictRejects hbefore h
  · exact exec_decChar_of_other_strict (streamSt_opened_or_pad .strict text) hother rfl
  · exact exec_decChar_of_symbol_after_pad (if_pos ⟨rfl, hpad⟩) hsymbol

/-- The first character that overflows the buffer is a symbol that completes a byte. -/
theorem exec_decChar_of_first_overflowing (haccepts : ¬ rejects pol (text ++ [c])) (hfits : ¬ overflows text)
    (h : overflows (text ++ [c])) :
    exec (.decChar c) { s with dec := decodedText pol text } =
      .next { s with err := recordError .overflow s.err, dec := ⟨.error, pol, 0, 0, []⟩ } := by
  have hsymbol : ∃ v, classify c = .symbol v := by
    cases hc : classify c with
    | symbol v => exact ⟨v, rfl⟩
    | pad => exact absurd (by rwa [overflows, symbolsOf_append_singleton_of_not_symbol (.inl hc)] at h) hfits
    | other => exact absurd (by rwa [overflows, symbolsOf_append_singleton_of_not_symbol (.inr hc)] at h) hfits
  obtain ⟨v, hc⟩ := hsymbol
  have hfull : 8 ≤ (decodedText pol text).nb.toNat + 5 ∧ (decodedText pol text).buf.length = 64 := by
    rw [overflows, symbolsOf_append_singleton_of_symbol hc, List.length_append, List.length_singleton] at h
    rw [overflows] at hfits
    rw [decodedText, decodedSoFar_nb, decodedSoFar_length]
    omega
  exact exec_decChar_of_full (streamSt_of_accepts_symbol hc haccepts) hc hfull.1 hfull.2

/-! ### The stream -/

/-- DEC.INIT and one DEC.CHAR per character of an accepted text that fits leave the decoder in the form of that text,
and the commands after them run from there. -/
theorem execAll_decChars (hpol : s.cfg.policy = pol) (is : List Instr) (haccepts : ¬ rejects pol text)
    (hfits : ¬ overflows text) :
    execAll (.decInit :: (text.map .decChar ++ is)) s = execAll is { s with dec := decodedText pol text } := by
  induction text using List.reverseRecOn generalizing is with
  | nil =>
    rw [decodedText_nil, ← hpol]
    exact execAll_cons rfl is
  | append_singleton text c ih =>
    rw [List.map_append, List.append_assoc, ih _ (mt (rejects_append_right · [c]) haccepts)
      (mt (overflows_append_right · [c]) hfits)]
    exact execAll_cons (exec_decChar_decodedText s haccepts hfits) is

/-- The rest of a stream has no effect in ERROR (60_exceptions.md R204). -/
theorem execAll_of_dec_error {s : State} (hst : s.dec.st = .error) (rest : List Byte) :
    execAll (rest.map .decChar ++ [.decFinal]) s = .next s := by
  induction rest with
  | nil => exact execAll_cons (exec_decFinal_of_error hst) []
  | cons c rest ih => exact (execAll_cons (exec_decChar_of_error hst) _).trans ih

/-- A stream ends with the error that its first character after an accepted text that fits raises. -/
theorem execAll_decodeStream_of_error (hpol : s.cfg.policy = pol) (haccepts : ¬ rejects pol text)
    (hfits : ¬ overflows text) {t : State} (hraise : exec (.decChar c) { s with dec := decodedText pol text } = .next t)
    (hst : t.dec.st = .error) (rest : List Byte) : execAll (decodeStream (text ++ c :: rest)) s = .next t := by
  rw [decodeStream, List.map_append, List.append_assoc, execAll_decChars s hpol _ haccepts hfits, List.map_cons,
    List.cons_append, execAll_cons hraise, execAll_of_dec_error hst]

/-- The bytes of an accepted text are the source's. -/
theorem decodedText_buf (pol : Policy) (text : List Byte) :
    (decodedText pol text).buf = sourceDecodeBytes (symbolsOf text) := rfl

/-- An accepted text that fits ends DONE with the source's bytes. -/
theorem execAll_decodeStream_of_accepts (hpol : s.cfg.policy = pol) (haccepts : ¬ rejects pol text)
    (hfits : ¬ overflows text) :
    execAll (decodeStream text) s = .next { s with dec := ⟨.done, pol, 0, 0, sourceDecodeBytes (symbolsOf text)⟩ } := by
  rw [decodeStream, execAll_decChars s hpol _ haccepts hfits,
    execAll_cons (exec_decFinal_of_stream (streamSt_opened_or_pad pol text)), ← decodedText_buf pol text]
  rfl

/-- An accepted text that overflows ends in ERROR with Overflow. -/
theorem execAll_decodeStream_of_overflows (hpol : s.cfg.policy = pol) (haccepts : ¬ rejects pol text)
    (hover : overflows text) :
    execAll (decodeStream text) s =
      .next { s with err := recordError .overflow s.err, dec := ⟨.error, pol, 0, 0, []⟩ } := by
  obtain ⟨before, c, after, rfl, hfits, hfirst⟩ := exists_first_char not_overflows_nil text hover
  have hfirstAccepted : ¬ rejects pol (before ++ [c]) := fun h => haccepts (by simpa using rejects_append_right h after)
  exact execAll_decodeStream_of_error s hpol (mt (rejects_append_right · [c]) hfirstAccepted) hfits
    (exec_decChar_of_first_overflowing s hfirstAccepted hfits hfirst) rfl after

/-- A text whose first rejected character comes while its symbols fit ends in ERROR with InvalidCharacter. -/
theorem execAll_decodeStream_of_first_rejected (hpol : s.cfg.policy = .strict) (hbefore : ¬ strictRejects text)
    (h : strictRejects (text ++ [c])) (hfits : ¬ overflows text) (rest : List Byte) :
    execAll (decodeStream (text ++ c :: rest)) s =
      .next { s with err := recordError .invalidCharacter s.err, dec := ⟨.error, .strict, 0, 0, []⟩ } :=
  execAll_decodeStream_of_error s hpol (fun h => hbefore h.2) hfits (exec_decChar_of_first_rejected s hbefore h) rfl
    rest

end

/-- Settles O25: STRIP rejects no text. -/
theorem decodeStreamUnderStrip : Obligations.DecodeStreamUnderStrip := by
  intro text s hpol
  have haccepts : ¬ rejects .strip text := fun h => by cases h.1
  exact ⟨fun hfits => execAll_decodeStream_of_accepts s hpol haccepts (Nat.not_lt.2 hfits),
    execAll_decodeStream_of_overflows s hpol haccepts⟩

/-- Settles O26: a rejected text is cut at its first rejected character. -/
theorem decodeStreamUnderStrict : Obligations.DecodeStreamUnderStrict := by
  intro text s hpol
  refine ⟨fun hrejects hfits => ?_, ?_, fun haccepts hfits => ?_, fun haccepts hover => ?_⟩
  · have hnil : ¬ strictRejects [] := not_strictRejects_of_symbols (by simp)
    obtain ⟨before, c, after, rfl, hbefore, hfirst⟩ := exists_first_char hnil text hrejects
    exact execAll_decodeStream_of_first_rejected s hpol hbefore hfirst
      (mt (overflows_append_right · (c :: after)) (Nat.not_lt.2 hfits)) after
  · rintro before after c rfl hbefore hfirst hfits
    exact execAll_decodeStream_of_first_rejected s hpol hbefore hfirst (Nat.not_lt.2 hfits) after
  · exact execAll_decodeStream_of_accepts s hpol (fun h => haccepts h.2) (Nat.not_lt.2 hfits)
  · exact execAll_decodeStream_of_overflows s hpol (fun h => haccepts h.2) hover

end Sys2Proof.Machine
end

section
/-!
SUPPORT. The source's `decode` undoes its `encode` (41_base32_decoder.md R136): the symbols of an encoding are the
padded number's 5-bit groups, and the bytes of a string are its number's 8-bit groups.
-/

namespace Sys2Proof.Machine

/-- The values of the symbols of the source's encoding (40_base32_encoder.md R115). -/
def sourceSymbols (bytes : List Byte) : List (BitVec 5) :=
  let n := bytes.length
  let len := (8 * n + 4) / 5
  let x := bytesValue bytes * 2 ^ (5 * len - 8 * n)
  (List.range len).map fun j => BitVec.ofNat 5 (x / 2 ^ (5 * len - 5 * j - 5))

theorem sourceEncode_eq_map_alpha (bytes : List Byte) : sourceEncode bytes = (sourceSymbols bytes).map alpha := by
  simp only [sourceEncode, sourceSymbols, List.map_map, Function.comp_def]

theorem length_sourceSymbols (bytes : List Byte) : (sourceSymbols bytes).length = (8 * bytes.length + 4) / 5 := by
  simp [sourceSymbols]

/-! ### A text of the alphabet -/

theorem symbolsOf_map_alpha (vs : List (BitVec 5)) : symbolsOf (vs.map alpha) = vs := by
  simp [symbolsOf, List.filterMap_map, classify_alpha]

theorem not_strictRejects_map_alpha (vs : List (BitVec 5)) : ¬ strictRejects (vs.map alpha) := by
  refine not_strictRejects_of_symbols fun c hc => ?_
  obtain ⟨v, -, rfl⟩ := List.mem_map.1 hc
  exact ⟨v, classify_alpha v⟩

/-! ### Numbers and their groups of bits -/

/-- The groups of a number below the last are those of the number without its last group. -/
theorem div_pow_of_not_last_group (x w : Nat) {len j : Nat} (hj : j < len) :
    x / 2 ^ (w * (len + 1) - w * j - w) = x / 2 ^ w / 2 ^ (w * len - w * j - w) := by
  have hle : w * (j + 1) ≤ w * len := Nat.mul_le_mul_left w hj
  have hpos : w * (len + 1) - w * j - w = w + (w * len - w * j - w) := by
    rw [Nat.mul_succ] at hle ⊢
    omega
  rw [hpos, pow_add, Nat.div_div_eq_div_mul]

/-- A number's 5-bit groups make the number again, as far as they reach. -/
theorem symbolsValue_groups (len x : Nat) :
    symbolsValue ((List.range len).map fun j => BitVec.ofNat 5 (x / 2 ^ (5 * len - 5 * j - 5))) =
      x % 2 ^ (5 * len) := by
  induction len generalizing x with
  | zero => simp [symbolsValue, Nat.mod_one]
  | succ len ih =>
    have hinit : (List.range len).map (fun j => BitVec.ofNat 5 (x / 2 ^ (5 * (len + 1) - 5 * j - 5))) =
        (List.range len).map fun j => BitVec.ofNat 5 (x / 2 ^ 5 / 2 ^ (5 * len - 5 * j - 5)) :=
      List.map_congr_left fun j hj => by rw [div_pow_of_not_last_group x 5 (List.mem_range.1 hj)]
    have hlast : 5 * (len + 1) - 5 * len - 5 = 0 := by omega
    rw [List.range_succ, List.map_append, List.map_singleton, hinit, symbolsValue_append_singleton, ih, hlast,
      pow_zero, Nat.div_one, BitVec.toNat_ofNat, Nat.mul_succ, Nat.add_comm (5 * len), pow_add, Nat.mod_mul,
      Nat.add_comm]
    rfl

/-- A byte string is its number's 8-bit groups. -/
theorem bytesValue_groups (bytes : List Byte) :
    (List.range bytes.length).map (fun i => BitVec.ofNat 8 (bytesValue bytes / 2 ^ (8 * bytes.length - 8 * i - 8))) =
      bytes := by
  induction bytes using List.reverseRecOn with
  | nil => rfl
  | append_singleton l b ih =>
    have hdiv : (256 * bytesValue l + b.toNat) / 2 ^ 8 = bytesValue l := by omega
    have hinit : (List.range l.length).map (fun i =>
        BitVec.ofNat 8 ((256 * bytesValue l + b.toNat) / 2 ^ (8 * (l.length + 1) - 8 * i - 8))) = l := by
      conv_rhs => rw [← ih]
      exact List.map_congr_left fun i hi => by rw [div_pow_of_not_last_group _ 8 (List.mem_range.1 hi), hdiv]
    have hlast : 8 * (l.length + 1) - 8 * l.length - 8 = 0 := by omega
    have hbyte : BitVec.ofNat 8 (256 * bytesValue l + b.toNat) = b :=
      BitVec.eq_of_toNat_eq (by rw [BitVec.toNat_ofNat]; omega)
    rw [bytesValue_append_singleton, List.length_append, List.length_singleton, List.range_succ, List.map_append, hinit,
      List.map_singleton, hlast, pow_zero, Nat.div_one, hbyte]

/-- The first bytes of the padded number are the string's: the zeros below them do not reach them. -/
theorem sourceDecodeBytes_sourceSymbols (bytes : List Byte) : sourceDecodeBytes (sourceSymbols bytes) = bytes := by
  set n := bytes.length with hn
  set len := (8 * n + 4) / 5 with hlen
  have hvalue : symbolsValue (sourceSymbols bytes) = bytesValue bytes * 2 ^ (5 * len - 8 * n) % 2 ^ (5 * len) :=
    symbolsValue_groups _ _
  have hcount : 5 * len / 8 = n := by omega
  conv_rhs => rw [← bytesValue_groups bytes]
  simp only [sourceDecodeBytes, length_sourceSymbols, hvalue, ← hn, ← hlen, hcount]
  refine List.map_congr_left fun i hi => BitVec.eq_of_toNat_eq ?_
  have hi := List.mem_range.1 hi
  have hpos : 5 * len - 8 * i - 8 = 5 * len - 8 * n + (8 * n - 8 * i - 8) := by omega
  rw [BitVec.toNat_ofNat, BitVec.toNat_ofNat, mod_div_mod_pow _ _ _ 8 (by omega), hpos, pow_add,
    ← Nat.div_div_eq_div_mul, Nat.mul_div_cancel _ (by positivity)]

/-- Settles O27: the encoding is an accepted text that fits, and its bytes are the string. -/
theorem decodingTheEncodingGivesTheBytesBack : Obligations.DecodingTheEncodingGivesTheBytesBack := by
  intro bytes s hlen
  obtain ⟨hencode, -⟩ := encodeStreamGivesTheSourceEncoding bytes s hlen
  have hsymbols : symbolsOf (sourceEncode bytes) = sourceSymbols bytes := by
    rw [sourceEncode_eq_map_alpha, symbolsOf_map_alpha]
  have haccepts (pol : Policy) : ¬ rejects pol (sourceEncode bytes) := fun ⟨_, h⟩ =>
    not_strictRejects_map_alpha _ (sourceEncode_eq_map_alpha bytes ▸ h)
  have hfits : ¬ overflows (sourceEncode bytes) := by
    rw [overflows, hsymbols, length_sourceSymbols]
    omega
  refine ⟨_, _, hencode, execAll_decodeStream_of_accepts _ rfl (haccepts _) hfits, rfl, ?_, rfl⟩
  rw [hsymbols, sourceDecodeBytes_sourceSymbols]

end Sys2Proof.Machine
end

section
/-!
SUPPORT. The message of a request (42_hotp_pipeline.md R152), PIPE.INIT (R153), and HMAC.REQ and the generator's step in
each pipeline state (R154 to R156, 60_exceptions.md R204).
-/

namespace Sys2Proof.Machine

/-! ### The message -/

/-- The serialised counter, byte by byte (R152). -/
theorem be64_toList (c : BitVec 64) : (be64 c).toList =
    [c.extractLsb' 56 8, c.extractLsb' 48 8, c.extractLsb' 40 8, c.extractLsb' 32 8, c.extractLsb' 24 8,
      c.extractLsb' 16 8, c.extractLsb' 8 8, c.extractLsb' 0 8] := by
  simp [be64, Vector.toList_ofFn, List.ofFn_succ]

/-- The serialised counter is the counter, its first byte most significant (R152). -/
theorem bytesValue_be64 (c : BitVec 64) : bytesValue (be64 c).toList = c.toNat := by
  have hc := c.isLt
  simp only [be64_toList, bytesValue, List.foldl_cons, List.foldl_nil, BitVec.extractLsb'_toNat,
    Nat.shiftRight_eq_div_pow]
  omega

/-- Settles O28: the counter's halves stand side by side, and its bytes are its number's. -/
theorem counterIsSerialisedBigEndian : Obligations.CounterIsSerialisedBigEndian := by
  refine fun s => ⟨?_, fun i => ?_⟩
  · rw [bytesValue_be64, counter, toNat_append_eq_add]
  · simp [be64]

/-! ### PIPE.INIT and HMAC.REQ -/

/-- Settles O29: the word is the command's, and its effect is PIPE.INIT's own update. -/
theorem pipeInitWithdrawsAndClears : Obligations.PipeInitWithdrawsAndClears :=
  ⟨decode_encode .pipeInit, fun _ => rfl⟩

/-- CFG.ALG holds an algorithm as its code (10_state.md R25). -/
@[simp] theorem algOfBits_algCode (alg : HashAlg) : algOfBits (algCode alg) = some alg := by cases alg <;> rfl

section

variable {s : State}

theorem exec_hmacReq_of_error (hst : s.pipe.st = .error) : exec .hmacReq s = .next s := by
  simp [exec, execHmacReq, hst]

theorem exec_hmacReq_of_wait (hst : s.pipe.st = .wait) : exec .hmacReq s = .next (raise .sequence .pipe s) := by
  simp [exec, execHmacReq, hst]

/-- Outside ERROR and WAIT the key and the algorithm decide. -/
theorem exec_hmacReq_of_ready (herr : s.pipe.st ≠ .error) (hwait : s.pipe.st ≠ .wait) :
    exec .hmacReq s = .next (requestHmac s) := by
  cases hst : s.pipe.st with
  | error => exact absurd hst herr
  | wait => exact absurd hst hwait
  | idle | tagged | truncated | done => simp [exec, execHmacReq, hst]

theorem requestHmac_of_unfinished_key (hkey : s.dec.st ≠ .done) : requestHmac s = raise .sequence .pipe s :=
  if_pos hkey

theorem requestHmac_of_no_algorithm (hkey : s.dec.st = .done) (halg : s.cfg.alg = 3) :
    requestHmac s = raise .hmacKeyError .pipe s := by
  simp [requestHmac, hkey, halg, algOfBits]

theorem requestHmac_of_algorithm {alg : HashAlg} (hkey : s.dec.st = .done) (halg : s.cfg.alg = algCode alg) :
    requestHmac s = issueRequest alg s := by
  simp [requestHmac, hkey, halg]

end

/-- Settles O30: state by state, then by the key and the algorithm. -/
theorem hmacReqSnapshotsTheRequest : Obligations.HmacReqSnapshotsTheRequest := by
  refine ⟨decode_encode .hmacReq, fun s => ⟨exec_hmacReq_of_error, exec_hmacReq_of_wait, fun herr hwait => ?_⟩⟩
  rw [exec_hmacReq_of_ready herr hwait]
  exact ⟨fun hkey => congrArg _ (requestHmac_of_unfinished_key hkey),
    fun hkey halg => congrArg _ (requestHmac_of_no_algorithm hkey halg),
    fun alg hkey halg => congrArg _ (requestHmac_of_algorithm hkey halg)⟩

/-! ### The generator's step -/

section

variable {s : State} {r : Request}

theorem generatorStep_of_tag (hst : s.pipe.st = .wait) (hreq : s.pipe.req = some r)
    {t : Vector Byte (tagLen r.alg)} (hans : Config.hmacGen r.alg r.key r.msg = .tag t) :
    generatorStep s = acceptTag t.toList s := by
  simp [generatorStep, hst, hreq, hans]

theorem generatorStep_of_keyError (hst : s.pipe.st = .wait) (hreq : s.pipe.req = some r)
    (hans : Config.hmacGen r.alg r.key r.msg = .keyError) : generatorStep s = raise .hmacKeyError .pipe s := by
  simp [generatorStep, hst, hreq, hans]

/-- Without a pending request the generator has no step (R156). -/
theorem generatorStep_of_none_pending (h : s.pipe.st ≠ .wait ∨ s.pipe.req = none) : generatorStep s = s := by
  unfold generatorStep
  split
  · next r hst hreq => simp [hst, hreq] at h
  · rfl

end

/-- Settles O31: the step is the generator's, by HMAC_GEN's answer. -/
theorem generatorAnswersThePendingRequest : Obligations.GeneratorAnswersThePendingRequest := by
  intro s rest hsched
  have hstep : step s = .next (generatorStep { s with schedule := rest }) := step_of_schedule hsched
  rw [hstep]
  refine ⟨fun r hst hreq => ?_, fun hno => congrArg _ (generatorStep_of_none_pending hno)⟩
  cases hans : Config.hmacGen r.alg r.key r.msg with
  | tag t => exact congrArg _ (generatorStep_of_tag (s := { s with schedule := rest }) hst hreq hans)
  | keyError => exact congrArg _ (generatorStep_of_keyError hst hreq hans)

end Sys2Proof.Machine
end

section
/-!
SUPPORT. Truncation (42_hotp_pipeline.md R157): on a tag of an algorithm's length the model's offset and value are the
source's.
-/

namespace Sys2Proof.Machine

theorem sourceBinCode_lt (tag : List Byte) : sourceBinCode tag < 2 ^ 31 := by
  have hbyte (i : Nat) : (tag.getD i 0).toNat < 2 ^ 8 := (tag.getD i 0).isLt
  have h1 := hbyte ((tag.getD (tag.length - 1) 0).toNat % 16 + 1)
  have h2 := hbyte ((tag.getD (tag.length - 1) 0).toNat % 16 + 2)
  have h3 := hbyte ((tag.getD (tag.length - 1) 0).toNat % 16 + 3)
  simp only [sourceBinCode]
  omega

section

variable {tag : List Byte} {alg : HashAlg} (hlen : tag.length = tagLen alg)
include hlen

theorem truncOffset_toNat_of_tag : (truncOffset tag).toNat = (tag.getD (tag.length - 1) 0).toNat % 16 := by
  have hle := le_tagLen alg
  rw [truncOffset_toNat, tagByte_of_lt _ _ (by omega)]

/-- Every byte read stands inside the tag: the offset is at most 15 and the tag has at least 20 bytes. -/
theorem truncValue_toNat_of_tag : (truncValue tag (truncOffset tag).toNat).toNat = sourceBinCode tag := by
  have hle := le_tagLen alg
  have hoff := (truncOffset tag).isLt
  simp only [sourceBinCode, ← truncOffset_toNat_of_tag hlen]
  rw [truncValue_toNat, tagByte_of_lt _ _ (by omega), tagByte_of_lt _ _ (by omega), tagByte_of_lt _ _ (by omega),
    tagByte_of_lt _ _ (by omega)]

end

/-! ### TRUNC by the pipeline's state -/

section

variable {s : State}

theorem exec_trunc_of_error (hst : s.pipe.st = .error) : exec .trunc s = .next s := by
  simp [exec, execTrunc, hst]

theorem exec_trunc_of_no_tag (herr : s.pipe.st ≠ .error) (htag : s.pipe.st ≠ .tagged) :
    exec .trunc s = .next (raise .sequence .pipe s) := by
  cases hst : s.pipe.st with
  | error => exact absurd hst herr
  | tagged => exact absurd hst htag
  | idle | wait | truncated | done => simp [exec, execTrunc, hst]

theorem exec_trunc_of_tagged {alg : HashAlg} (hst : s.pipe.st = .tagged) (hlen : s.pipe.tagBuf.length = tagLen alg) :
    exec .trunc s = .next { s with pipe := { s.pipe with
      offset := BitVec.ofNat 4 ((s.pipe.tagBuf.getD (tagLen alg - 1) 0).toNat % 16)
      binCode := BitVec.ofNat 31 (sourceBinCode s.pipe.tagBuf)
      st := .truncated } } := by
  rw [← truncValue_toNat_of_tag hlen, ← hlen, ← truncOffset_toNat_of_tag hlen, BitVec.ofNat_toNat,
    BitVec.ofNat_toNat, BitVec.setWidth_eq, BitVec.setWidth_eq]
  simp [exec, execTrunc, hst, truncateTag]

end

/-- Settles O33: state by state, with the tag's value as the source's. -/
theorem truncSelectsThirtyOneBits : Obligations.TruncSelectsThirtyOneBits :=
  ⟨decode_encode .trunc, fun _ => ⟨exec_trunc_of_error, exec_trunc_of_no_tag, fun _ => exec_trunc_of_tagged,
    sourceBinCode_lt _⟩⟩

end Sys2Proof.Machine
end

section
/-!
SUPPORT. The decimal rendering (42_hotp_pipeline.md R159): a text is the code of a number exactly if it is the number's
rendering, by induction on the digits.
-/

namespace Sys2Proof.Machine

/-- DECSTR(v, d) (R159). -/
def decString (v d : Nat) : List Byte := (List.range d).map (decDigit v d)

theorem length_decString (v d : Nat) : (decString v d).length = d := by simp [decString]

/-- The last digit is v mod 10, and the digits before it are those of v / 10. -/
theorem decString_succ (v d : Nat) :
    decString v (d + 1) = decString (v / 10) d ++ [BitVec.ofNat 8 (0x30 + v % 10)] := by
  have hinit : (List.range d).map (decDigit v (d + 1)) = decString (v / 10) d := by
    refine List.map_congr_left fun i hi => ?_
    have hpos : d + 1 - 1 - i = d - 1 - i + 1 := by
      have := List.mem_range.1 hi
      omega
    rw [decDigit, decDigit, hpos, pow_succ', Nat.div_div_eq_div_mul]
  rw [decString, List.range_succ, List.map_append, hinit]
  simp [decDigit]

theorem decimalValue_append_singleton (l : List Byte) (b : Byte) :
    decimalValue (l ++ [b]) = 10 * decimalValue l + (b.toNat - 0x30) := by simp [decimalValue]

/-- A text is the code of v exactly if its last digit is v mod 10 and the text before it is the code of v / 10. -/
theorem isCode_append_singleton_iff (l : List Byte) (b : Byte) (v d : Nat) :
    IsCode (l ++ [b]) v (d + 1) ↔ IsCode l (v / 10) d ∧ b = BitVec.ofNat 8 (0x30 + v % 10) := by
  have hdigit : (BitVec.ofNat 8 (0x30 + v % 10)).toNat = 0x30 + v % 10 := by
    rw [BitVec.toNat_ofNat]
    omega
  simp only [IsCode, List.length_append, List.length_singleton, Nat.add_right_cancel_iff, List.forall_mem_append,
    List.forall_mem_singleton, decimalValue_append_singleton, ← BitVec.toNat_inj, hdigit]
  constructor
  · rintro ⟨hlen, ⟨hl, hb⟩, hv⟩
    exact ⟨⟨hlen, hl, by omega⟩, by omega⟩
  · rintro ⟨⟨hlen, hl, hv⟩, hb⟩
    exact ⟨hlen, ⟨hl, by omega⟩, by omega⟩

/-- The numbers below 10^d have a code of d digits, their rendering and nothing else (R159). -/
theorem isCode_iff (text : List Byte) (v d : Nat) : IsCode text v d ↔ v < 10 ^ d ∧ text = decString v d := by
  induction d generalizing text v with
  | zero =>
    constructor
    · rintro ⟨hlen, -, rfl⟩
      obtain rfl := List.length_eq_zero_iff.1 hlen
      simp [decimalValue, decString]
    · rintro ⟨hv, rfl⟩
      obtain rfl : v = 0 := by simpa using hv
      simp [IsCode, decString, decimalValue]
  | succ d ih =>
    have hlt : v / 10 < 10 ^ d ↔ v < 10 ^ (d + 1) := by rw [pow_succ, Nat.div_lt_iff_lt_mul (by decide)]
    obtain rfl | ⟨l, b, rfl⟩ := text.eq_nil_or_concat'
    · simp [IsCode, decString_succ]
    · rw [isCode_append_singleton_iff, ih, hlt, decString_succ, and_assoc, List.append_singleton_inj]

/-- CODE_STR is the rendering, then zeros (R158). -/
theorem codeString_toList (v : Nat) {d : Nat} (hd : d ≤ 8) :
    (codeString v d).toList = decString v d ++ List.replicate (8 - d) 0 := by
  refine List.ext_getElem (by simp [length_decString, hd]) fun i hi _ => ?_
  by_cases hlt : i < d
  · simp [codeString, hlt, decString]
  · simp [codeString, hlt, List.getElem_append_right, length_decString, not_lt.1 hlt]

theorem take_codeString (v : Nat) {d : Nat} (hd : d ≤ 8) : (codeString v d).toList.take d = decString v d := by
  rw [codeString_toList v hd, List.take_left' (length_decString v d)]

theorem drop_codeString (v : Nat) {d : Nat} (hd : d ≤ 8) :
    (codeString v d).toList.drop d = List.replicate (8 - d) 0 := by
  rw [codeString_toList v hd, List.drop_left' (length_decString v d)]

theorem isCode_take_codeString {v d : Nat} (hd : d ≤ 8) (hv : v < 10 ^ d) :
    IsCode ((codeString v d).toList.take d) v d :=
  (isCode_iff _ v d).2 ⟨hv, take_codeString v hd⟩

/-- Settles O35: the code of a number is its rendering. -/
theorem decimalRenderingIsExact : Obligations.DecimalRenderingIsExact := fun v d hd hv =>
  ⟨isCode_take_codeString hd hv, drop_codeString v hd,
    fun text h => ((isCode_iff text v d).1 h).2.trans (take_codeString v hd).symm⟩

end Sys2Proof.Machine
end

section
/-!
SUPPORT. REDUCE in each pipeline state (42_hotp_pipeline.md R158), and a whole derivation (R161).
-/

namespace Sys2Proof.Machine

/-! ### REDUCE by the pipeline's state -/

theorem mem_digits_iff (d : BitVec 4) : d ∈ [6#4, 7#4, 8#4] ↔ legalDigits d = true := by
  simp [legalDigits, or_assoc]

theorem toNat_le_of_mem_digits {d : BitVec 4} (h : d ∈ [6#4, 7#4, 8#4]) : d.toNat ≤ 8 := by
  have hd := (legalDigits_iff d).1 ((mem_digits_iff d).1 h)
  omega

section

variable {s : State}

theorem exec_reduce_of_error (hst : s.pipe.st = .error) : exec .reduce s = .next s := by
  simp [exec, execReduce, hst]

theorem exec_reduce_of_no_value (hst : s.pipe.st = .idle ∨ s.pipe.st = .wait ∨ s.pipe.st = .tagged) :
    exec .reduce s = .next (raise .sequence .pipe s) := by
  rcases hst with hst | hst | hst <;> simp [exec, execReduce, hst]

/-- With a truncated value the digit count decides. -/
theorem exec_reduce_of_value (hst : s.pipe.st = .truncated ∨ s.pipe.st = .done) :
    exec .reduce s = .next (reduceCode s) := by
  rcases hst with hst | hst <;> simp [exec, execReduce, hst]

theorem exec_reduce_of_bad_digits (hst : s.pipe.st = .truncated ∨ s.pipe.st = .done)
    (hdigits : s.cfg.digits ∉ [6#4, 7#4, 8#4]) : exec .reduce s = .next (raise .invalidDigits .pipe s) := by
  rw [exec_reduce_of_value hst, reduceCode, if_neg (mt (mem_digits_iff _).2 hdigits)]

theorem exec_reduce_of_digits (hst : s.pipe.st = .truncated ∨ s.pipe.st = .done)
    (hdigits : s.cfg.digits ∈ [6#4, 7#4, 8#4]) :
    exec .reduce s = .next { s with pipe := { s.pipe with
      code := BitVec.ofNat 27 (s.pipe.binCode.toNat % 10 ^ s.cfg.digits.toNat)
      codeStr := codeString (s.pipe.binCode.toNat % 10 ^ s.cfg.digits.toNat) s.cfg.digits.toNat
      codeDig := s.cfg.digits
      st := .done } } := by
  rw [exec_reduce_of_value hst, reduceCode, if_pos ((mem_digits_iff _).1 hdigits)]

end

/-- A remainder is below the power it is taken by, so it has a code. -/
theorem isCode_mod (x : Nat) {d : Nat} (hd : d ≤ 8) :
    IsCode ((codeString (x % 10 ^ d) d).toList.take d) (x % 10 ^ d) d :=
  isCode_take_codeString hd (Nat.mod_lt _ (by positivity))

/-- Settles O34: state by state, with CODE_STR the remainder's rendering. -/
theorem reduceTakesTheRemainder : Obligations.ReduceTakesTheRemainder := by
  refine ⟨decode_encode .reduce, fun s => ⟨exec_reduce_of_error, exec_reduce_of_no_value,
    fun hst => ⟨exec_reduce_of_bad_digits hst, fun hdigits => ?_⟩⟩⟩
  have hle := toNat_le_of_mem_digits hdigits
  exact ⟨_, isCode_mod _ hle, drop_codeString _ hle, exec_reduce_of_digits hst hdigits⟩

/-! ### A derivation -/

/-- CODE holds every remainder REDUCE takes. -/
theorem toNat_ofNat_mod_pow (x : Nat) {d : Nat} (hd : d ≤ 8) : (BitVec.ofNat 27 (x % 10 ^ d)).toNat = x % 10 ^ d := by
  have hpow : 10 ^ d < 2 ^ 27 := (pow_le_pow_right₀ (by decide) hd).trans_lt (by norm_num)
  have hmod : x % 10 ^ d < 10 ^ d := Nat.mod_lt _ (by positivity)
  rw [BitVec.toNat_ofNat, Nat.mod_eq_of_lt (hmod.trans hpow)]

/-- BINCODE holds the source's truncated value. -/
theorem toNat_ofNat_sourceBinCode (tag : List Byte) :
    (BitVec.ofNat 31 (sourceBinCode tag)).toNat = sourceBinCode tag := by
  rw [BitVec.toNat_ofNat, Nat.mod_eq_of_lt (sourceBinCode_lt tag)]

/-- Settles O36: command by command from the issued request, for either answer of HMAC_GEN. -/
theorem derivationComputesTheCode : Obligations.DerivationComputesTheCode := by
  intro s alg hkey halg hdigits hwait herr
  have hle := toNat_le_of_mem_digits hdigits
  refine ⟨issueRequest alg s, ?_, rfl, ?_⟩
  · rw [exec_hmacReq_of_ready herr hwait, requestHmac_of_algorithm hkey halg]
  cases hans : Config.hmacGen alg s.dec.buf (be64 (s.ctrHi ++ s.ctrLo)) with
  | tag t =>
    have hgen : generatorStep (issueRequest alg s) = acceptTag t.toList (issueRequest alg s) :=
      generatorStep_of_tag (r := ⟨s.pipe.reqSeq + 1, alg, s.dec.buf, be64 (counter s)⟩) rfl rfl hans
    refine ⟨_, _, _, congrArg Host.Outcome.next hgen, exec_trunc_of_tagged (alg := alg) rfl t.length_toList,
      exec_reduce_of_digits (.inl rfl) hdigits, rfl, rfl, ?_⟩
    simp only [acceptTag_pipe, acceptTag_cfg, issueRequest_cfg, toNat_ofNat_sourceBinCode]
    exact ⟨toNat_ofNat_mod_pow _ hle, isCode_mod _ hle⟩
  | keyError =>
    have hgen : generatorStep (issueRequest alg s) = raise .hmacKeyError .pipe (issueRequest alg s) :=
      generatorStep_of_keyError rfl rfl hans
    exact ⟨_, congrArg Host.Outcome.next hgen, rfl, rfl⟩

end Sys2Proof.Machine
end

section
/-!
SUPPORT. The control commands NOP, ECLR and SRST (43_control.md R180 to R182).
-/

namespace Sys2Proof.Machine

/-- Settles O12: the word is the command's, and its answer is the state itself. -/
theorem nopChangesNothing : Obligations.NopChangesNothing :=
  ⟨decode_encode .nop, fun _ => rfl⟩

/-- Settles O13: the word is the command's, and its effect is the error record's own clearing. -/
theorem eclrClearsOnlyTheErrorRecord : Obligations.EclrClearsOnlyTheErrorRecord :=
  ⟨decode_encode .eclr, fun _ => rfl⟩

/-- OPEN, OPEN, IDLE and no error are the zero codes of STATUS (10_state.md R29). -/
theorem statusWord_eq_zero {s : State} (henc : s.enc.st = .opened) (hdec : s.dec.st = .opened)
    (hpipe : s.pipe.st = .idle) (herr : s.err = noError) : statusWord s = 0 := by
  rw [statusWord, henc, hdec, hpipe, herr]
  rfl

/-- Settles O14: the word is the command's, its effect is the three INITs and the clearing, and each field of STATUS
is then 0. -/
theorem srstEmptiesAllThreeUnits : Obligations.SrstEmptiesAllThreeUnits :=
  ⟨decode_encode .srst, fun s => ⟨softReset s, rfl, rfl, statusWord_eq_zero rfl rfl rfl rfl⟩⟩

end Sys2Proof.Machine
end

section
/-!
SUPPORT. Errors and liveness (60_exceptions.md): what `raise` makes of the record and of each unit (R202, R203),
commands to a unit in ERROR (R204), that no move stops the block (R200), and the end of a pending derivation (R219).
-/

namespace Sys2Proof.Machine

/-! ### No move stops the block -/

theorem exec_answers (i : Instr) (s : State) : ∃ t, exec i s = .next t :=
  (exec_effect i s).imp fun _ => And.left

/-- No word written to CMD stops the block, an illegal one included (30_encoding.md R95). -/
theorem executeWord_answers (w : Word) (s : State) : ∃ t, executeWord w s = .next t := by
  unfold executeWord
  split
  · exact exec_answers _ s
  · exact ⟨_, rfl⟩

theorem busWrite_answers (a : WAddr) (w : Word) (s : State) : ∃ t, busWrite a w s = .next t := by
  unfold busWrite
  split
  · exact executeWord_answers w s
  all_goals exact ⟨_, rfl⟩

theorem hostStep_answers (s : State) : ∃ t, hostStep s = .next t := by
  unfold hostStep
  split
  · next o _ =>
    cases o with
    | wr a w => exact busWrite_answers a w _
    | rd | pollNe | pollEq => exact ⟨_, rfl⟩
  · exact ⟨_, rfl⟩

theorem agentStep_answers (m : Move) (s : State) : ∃ t, agentStep m s = .next t := by
  cases m with
  | host => exact hostStep_answers s
  | generator | response | reset => exact ⟨_, rfl⟩

theorem step_answers (s : State) : ∃ t, step s = .next t := agentStep_answers _ _

/-- Settles O11: a command answers one of its effects, and every agent's move answers. -/
theorem everyStepAnswersANextState : Obligations.EveryStepAnswersANextState :=
  ⟨exec_answers, step_answers⟩

/-! ### The end of a pending derivation -/

theorem CommandEffect.schedule {s t : State} {i : Instr} (he : CommandEffect s i t) : t.schedule = s.schedule := by
  cases he with
  | raised => exact raise_schedule _ _ _
  | unchanged | errorsCleared | softReset | encoder | decoder | pipeline => rfl

theorem MoveEffect.schedule {s t : State} {m : Move} (he : MoveEffect s m t) : t.schedule = s.schedule := by
  cases he with
  | command _ hc => exact hc.schedule
  | illegalWord | registers | tagAccepted | keyError | unchanged | reset => rfl

/-- A step takes its move off the schedule and leaves the moves after it (20_memory.md R74). -/
theorem schedule_of_step {s t : State} (h : step s = .next t) : t.schedule = s.schedule.tail := by
  obtain ⟨m, -, he⟩ := effect_of_step h
  exact he.schedule

/-- A run is its first step, then the rest. -/
theorem runSteps_succ {s t : State} (h : step s = .next t) (n : Nat) : runSteps (n + 1) s = runSteps n t := by
  rw [runSteps, h]

/-- Either answer of HMAC_GEN takes the pipeline out of WAIT (42_hotp_pipeline.md R155). -/
theorem generatorStep_not_enabled {s : State} (h : s.Inv) : ¬ generatorEnabled (generatorStep s) := by
  by_cases hst : s.pipe.st = .wait
  · obtain ⟨r, hreq⟩ := Option.ne_none_iff_exists'.1 (h.pipe.wait_iff.1 hst)
    cases hans : Config.hmacGen r.alg r.key r.msg with
    | tag t =>
      rw [generatorStep_of_tag hst hreq hans]
      exact nofun
    | keyError =>
      rw [generatorStep_of_keyError hst hreq hans]
      exact nofun
  · rwa [generatorStep_of_none_pending (.inl hst)]

/-- Settles O41, by induction on the moves before the generator's: a move ends the wait itself, or keeps the invariant
and leaves the rest of the schedule to a state that still waits. -/
theorem waitEndsByTheGeneratorsStep : Obligations.WaitEndsByTheGeneratorsStep := by
  intro before rest
  induction before with
  | nil =>
    intro s h hsched _
    exact ⟨1, _, le_rfl, runSteps_succ (step_of_schedule hsched) 0,
      generatorStep_not_enabled (h.congr rfl rfl rfl rfl)⟩
  | cons m before ih =>
    intro s h hsched _
    obtain ⟨t, hstep⟩ := step_answers s
    by_cases hwait : generatorEnabled t
    · have hrest : t.schedule = before ++ .generator :: rest := by rw [schedule_of_step hstep, hsched]; rfl
      obtain ⟨j, u, hj, hrun, hu⟩ := ih t (stepKeepsTheInvariant s t h hstep) hrest hwait
      exact ⟨j + 1, u, Nat.succ_le_succ hj, (runSteps_succ hstep j).trans hrun, hu⟩
    · exact ⟨1, t, Nat.le_add_left _ _, runSteps_succ hstep 0, hwait⟩

/-! ### `raise`, and units in ERROR -/

/-- The record after one more error, by ERRCODE as the host reads it (R202). -/
theorem recordError_eq_ite (k : ErrKind) (e : ErrRec) :
    recordError k e = if errCode e = 0 then ⟨some k, e.mult⟩ else ⟨e.code, true⟩ := by
  split_ifs with hzero
  · exact recordError_of_none ((errCode_eq_zero_iff e).1 hzero) k
  · exact recordError_of_some (mt (errCode_eq_zero_iff e).2 hzero) k

/-- Settles O8: the record is the one of `recordError`, and each unit's values are those of its INIT but for ERROR. -/
theorem raiseRecordsTheErrorAndEmptiesTheUnit : Obligations.RaiseRecordsTheErrorAndEmptiesTheUnit := by
  intro k s
  rw [← recordError_eq_ite k s.err]
  exact ⟨rfl, rfl, rfl, rfl⟩

/-- Settles O9: unit by unit, then the illegal word. -/
theorem unitsInErrorIgnoreTheirCommands : Obligations.UnitsInErrorIgnoreTheirCommands := fun s _ _ =>
  ⟨fun henc => ⟨exec_encByte_of_error _ henc, exec_encFinal_of_error henc⟩,
    fun hdec => ⟨exec_decChar_of_error hdec, exec_decFinal_of_error hdec⟩,
    fun hpipe => ⟨exec_hmacReq_of_error hpipe, exec_trunc_of_error hpipe, exec_reduce_of_error hpipe⟩,
    fun hword => busWrite_of_not_legalWord hword s⟩

end Sys2Proof.Machine
end

section
/-!
SUPPORT. What a host reads where nothing is held (70_reset_and_hazards.md): the results while a request is pending
(R240), and every word after reset (R230).
-/

namespace Sys2Proof.Machine

/-- A lane is zero where the buffer holds zeros, and past its end (20_memory.md R70). -/
@[simp] theorem lane_replicate_zero (n i : Nat) : lane (List.replicate n 0#8) i = 0 := by
  rw [lane, List.getD_eq_getElem?_getD, List.getElem?_replicate]
  split_ifs <;> rfl

@[simp] theorem windowWord_replicate_zero (n k : Nat) : windowWord (List.replicate n 0#8) k = 0 := by
  simp [windowWord]

@[simp] theorem windowWord_nil (k : Nat) : windowWord [] k = 0 := windowWord_replicate_zero 0 k

/-! ### Results while a request is pending -/

/-- A pending pipeline is at its INIT values but for its state, its request and REQ_SEQ (42_hotp_pipeline.md R154). -/
theorem PipelineInv.eq_emptyPipeline_of_wait {cap : Nat} {p : Pipeline} (h : PipelineInv cap p) (hst : p.st = .wait) :
    p = { emptyPipeline p.reqSeq with st := .wait, req := p.req } := by
  have htag : p.tagBuf = [] := h.tag_empty (by simp [hst, holdsTag])
  obtain ⟨hoffset, hvalue⟩ := h.value_zero (by simp [hst, holdsValue])
  obtain ⟨hcode, hdig, hstr⟩ := h.code_zero (by simp [hst])
  obtain ⟨st, seq, req, tag, offset, value, code, str, dig⟩ := p
  subst hst htag hoffset hvalue hcode hdig hstr
  rfl

/-- TAG_LEN, the results and the TAG_BUF window show neither the pipeline's state nor its request (20_memory.md R64). -/
theorem busRead_results_of_emptyPipeline {s : State} {seq : BitVec 8} {st : PipeSt} {req : Option Request}
    (hpipe : s.pipe = { emptyPipeline seq with st := st, req := req }) {a : WAddr}
    (ha : 9 ≤ a.toNat ∧ a.toNat ≤ 15 ∨ 112 ≤ a.toNat) : busRead a s = 0 := by
  obtain ⟨hlo, hhi⟩ | hwindow := ha
  · unfold busRead
    interval_cases a.toNat <;> simp [-List.reduceReplicate, hpipe, emptyPipeline, lengthWord]
  · rw [busRead_of_unnamed (by omega), if_neg (by omega), if_neg (by omega), if_neg (by omega), hpipe]
    exact windowWord_nil _

/-- Settles O40: the pending pipeline holds no results to read. -/
theorem resultsReadZeroWhilePending : Obligations.ResultsReadZeroWhilePending := fun _ _ h hst =>
  busRead_results_of_emptyPipeline (h.pipe.eq_emptyPipeline_of_wait hst)

/-! ### Reset -/

/-- Past the named registers everything reads 0 after reset: the reserved words and the three empty windows. -/
theorem busRead_resetBlock_of_unnamed (s : State) {a : WAddr} (ha : 18 ≤ a.toNat) : busRead a (resetBlock s) = 0 := by
  rw [busRead_of_unnamed ha]
  simp [emptyEncoder, emptyDecoder, emptyPipeline]

/-- The named registers as they read in the state after reset. -/
theorem busRead_reset_of_named : ∀ n < 18, busRead (BitVec.ofNat 7 n) State.reset =
    if BitVec.ofNat 7 n = 2 then 0x00000600#32 else if BitVec.ofNat 7 n = 17 then 0x01674040#32 else 0 := by decide

/-- What each word reads after reset (R230): past the named registers nothing is held, and the named ones show the
block's elements, which are those of the reset state. -/
theorem busRead_resetBlock (s : State) (a : WAddr) : busRead a (resetBlock s) =
    if a = 2 then 0x00000600#32 else if a = 17 then 0x01674040#32 else 0 := by
  by_cases ha : 18 ≤ a.toNat
  · rw [busRead_resetBlock_of_unnamed s ha, if_neg (by bv_omega), if_neg (by bv_omega)]
  · obtain ⟨n, hn, rfl⟩ : ∃ n < 18, a = BitVec.ofNat 7 n := ⟨a.toNat, by omega, by simp⟩
    exact busRead_reset_of_named n hn

/-- Settles O58: the step is the reset input's, and its reads are those after reset. -/
theorem resetGivesTheResetValues : Obligations.ResetGivesTheResetValues := by
  intro s rest hsched
  refine ⟨resetBlock { s with schedule := rest }, step_of_schedule hsched, rfl, ?_, busRead_resetBlock _⟩
  rintro hhost rfl
  rw [resetBlock, hhost]
  rfl

end Sys2Proof.Machine
end
